-- ==== Sys2Proof/Word.lean ====
section
/-! DEFINITION. The value types of SHA1-CORE (`00_scope.md` R7): bytes, 32-bit words, 64-bit words, and the
fixed-size arrays the rules index. No value of this hardware is signed. -/

namespace Sys2Proof

/-- A `u8` (R7). -/
abbrev Byte := BitVec 8

/-- A `u32`: a digest-state word, a schedule word or a working variable (R5, R7). -/
abbrev Word := BitVec 32

/-- A `u64`: the bit counter and the length field (R5, R7). -/
abbrev DWord := BitVec 64

/-- The five digest-state words `H[0..4]` (R22). -/
abbrev StateWords := Vector Word 5

/-- One block: 64 bytes (R5), the shape of `BUF[0..63]` and the operand of `COMPRESS` (R29, R70). -/
abbrev Block := Vector Byte 64

/-- The expanded message schedule `W[0..79]` (R30). -/
abbrev Schedule := Vector Word 80

/-- The 20 digest bytes `DIGEST[0..19]` (R31). -/
abbrev DigestBytes := Vector Byte 20

/-- The 40 digest characters `HEX[0..39]`, as character codes (R31, R16). -/
abbrev HexChars := Vector Byte 40

end Sys2Proof
end

