-- ==== Sys2Proof/Machine/Bits.lean ====
section
/-! DEFINITION. The primitives of `00_scope.md` section 4: rotation (R8), big-endian byte order (R12), and the reads
and writes of byte arrays (`MemRead`, `MemWrite`, R13). Addition modulo 2^32 (R9) and the bitwise operators (R10) are
those of `BitVec 32`. -/

namespace Sys2Proof.Machine

/-- `rotl_n(x)`, the circular left rotation of a 32-bit word, for `0 < n < 32` (R8; only 1, 5 and 30 occur). -/
def rotl (n : Nat) (x : Word) : Word := (x <<< n) ||| (x >>> (32 - n))

/-- `be(s)`: the unsigned integer whose most significant byte is the first byte of `s` (R12). -/
def be (s : List Byte) : Nat := s.foldl (fun acc b => acc * 256 + b.toNat) 0

/-- `be32_bytes(v)`: `v[31:24], v[23:16], v[15:8], v[7:0]` (R12). -/
def be32Bytes (v : Word) : Vector Byte 4 :=
  #v[v.extractLsb' 24 8, v.extractLsb' 16 8, v.extractLsb' 8 8, v.extractLsb' 0 8]

/-- `be64_bytes(v)`: `v[63:56]` first, `v[7:0]` last (R12, R43). -/
def be64Bytes (v : DWord) : Vector Byte 8 :=
  #v[v.extractLsb' 56 8, v.extractLsb' 48 8, v.extractLsb' 40 8, v.extractLsb' 32 8,
     v.extractLsb' 24 8, v.extractLsb' 16 8, v.extractLsb' 8 8, v.extractLsb' 0 8]

/-- `MemRead(S:i, m)`: the `m` bytes of `S` from index `i` as an unsigned integer, first byte most significant (R13). -/
def memRead {n : Nat} (S : Vector Byte n) (i m : Nat) : Nat := be ((S.toList.drop i).take m)

/-- `MemWrite(S:i, m, v)` with `v` already laid out as its `m` bytes, most significant first (R13): they go to
`S[i..i+m)` and no other byte changes. -/
def memWrite {n m : Nat} (S : Vector Byte n) (i : Nat) (bytes : Vector Byte m) : Vector Byte n :=
  Vector.ofFn fun j => if h : i ≤ j.val ∧ j.val < i + m then bytes[j.val - i] else S[j]

/-- `for j in [lo,hi): S[j] <- 0x00` (the zero fills of R107 and R108). -/
def zeroFill {n : Nat} (S : Vector Byte n) (lo hi : Nat) : Vector Byte n :=
  Vector.ofFn fun j => if lo ≤ j.val ∧ j.val < hi then 0x00 else S[j]

end Sys2Proof.Machine
end

