-- ==== Sys2Proof/Machine/Operands.lean ====
section
/-! DEFINITION. The operand forms: how a frame's `LEN` and payload are assembled (`30_encoding.md` R57), what a chunk
counts for (R94), and how a block is taken as a value from payload bytes (R70). There are no immediates, register
fields or addressing modes (R57, R67). -/

namespace Sys2Proof.Machine

/-- `LEN = be(frame[1..9))`: the 8 bytes after the opcode, big-endian, neither scaled nor shifted (R57). -/
def lenField (afterOpcode : List Byte) : Nat := be (afterOpcode.take 8)

/-- The 8 bytes of the `LEN` field of a chunk (R56, R57). -/
def lenBytes (chunk : List Byte) : List Byte := (be64Bytes (BitVec.ofNat 64 chunk.length)).toList

/-- The message bits of `n` bytes, `8 * n` (R11, R94). -/
def bitsOf (n : Nat) : Nat := 8 * n

/-- The block operand taken from 64 consecutive payload bytes (R70, R40): byte `i` of the block is byte `i` of `bytes`.
Every use has at least 64 bytes; the `0` is never read (`Laws/Streaming.lean`, `blockOf_getElem`). -/
def blockOf (bytes : List Byte) : Block := Vector.ofFn fun i => bytes.getD i.val 0

end Sys2Proof.Machine
end

