-- ==== Sys2Proof/Syntax.lean ====
section
/-! DEFINITION. The commands of SHA1-CORE (`30_encoding.md` R55, R58): the four rows of the opcode table. -/

namespace Sys2Proof

/-- The abstract host commands (R55). The session operand of the source's operations is implicit: it is the one
session the core holds (R36). A chunk is a finite byte sequence of any length, first byte first. -/
inductive Instr where
  /-- `NEW` (R90): start a fresh session. -/
  | new
  /-- `UPDATE chunk` (R91): extend the stream by `chunk`. -/
  | update (chunk : List Byte)
  /-- `FINISH` (R113): pad, compress, produce the digest. -/
  | finish
  /-- `DIGEST_HEX chunk` (R116): `NEW`, `UPDATE chunk`, `FINISH` composed. -/
  | digestHex (chunk : List Byte)
  deriving DecidableEq, Repr

/-- The assigned opcodes by name (R58); the opcode byte alone tells the frame's format (R56). -/
inductive Opcode where
  | new
  | update
  | finish
  | digestHex
  deriving DecidableEq, Repr

/-- The two frame formats (R56): `N` has no payload, `P` carries an 8-byte `LEN` and `LEN` payload bytes. -/
inductive Format where
  | n
  | p
  deriving DecidableEq, Repr

end Sys2Proof
end

