-- ==== Sys2Proof/WellFormed.lean ====
section
/-! DEFINITION. Which commands a frame can carry (`30_encoding.md` R56, R57): `LEN` is an unsigned 64-bit field, so a
chunk of 2^64 bytes or more has no frame. -/

namespace Sys2Proof

/-- The chunk's length fits the 64-bit `LEN` field (R57). -/
abbrev lenFits (chunk : List Byte) : Prop := chunk.length < 2 ^ 64

/-- A command that has a frame: a chunk, where there is one, fits `LEN` (R56, R57). -/
def Instr.wf : Instr → Bool
  | .new => true
  | .update chunk => decide (lenFits chunk)
  | .finish => true
  | .digestHex chunk => decide (lenFits chunk)

end Sys2Proof
end

