-- ==== Sys2Proof/Decode.lean ====
section
/-! DEFINITION. The frame decoder and encoder (`30_encoding.md` R56 to R60, R65). Decoding is total on any bytes; what
spells no command is rejected by name. -/

namespace Sys2Proof

/-- What stands at a frame boundary of the command stream. -/
inductive Decoded where
  /-- No byte: the host has issued no command. -/
  | idle
  /-- A whole frame, read as a command, and the bytes after it. -/
  | frame (i : Instr) (rest : List Byte)
  /-- A reserved opcode, a frame of one byte (R59), and the bytes after it. -/
  | reserved (op : Byte) (rest : List Byte)
  /-- A format `P` frame with fewer than `9 + LEN` bytes, or fewer than 9: not a command (R60). -/
  | truncated (op : Byte)
  deriving DecidableEq, Repr

/-- The opcode map; the whole byte is compared (R58), every other value is reserved (R59). -/
def opcodeOf (op : Byte) : Option Opcode :=
  if op = 0x01 then some .new
  else if op = 0x02 then some .update
  else if op = 0x03 then some .finish
  else if op = 0x04 then some .digestHex
  else none

/-- The opcode byte of each command (R58). -/
def opcodeByte : Opcode → Byte
  | .new => 0x01
  | .update => 0x02
  | .finish => 0x03
  | .digestHex => 0x04

/-- The opcode alone tells the format (R56, R58). -/
def formatOf : Opcode → Format
  | .new => .n
  | .update => .p
  | .finish => .n
  | .digestHex => .p

/-- The rest of a format `P` frame: `LEN`, then `LEN` payload bytes, the chunk (R56, R57, R65). -/
def decodePayload (op : Byte) (mk : List Byte → Instr) (tail : List Byte) : Decoded :=
  if tail.length < 8 then .truncated op
  else if (tail.drop 8).length < Machine.lenField tail then .truncated op
  else .frame (mk ((tail.drop 8).take (Machine.lenField tail))) ((tail.drop 8).drop (Machine.lenField tail))

/-- Decode one frame (R65): read the opcode; if it is reserved the frame is that one byte; otherwise, for format `P`,
read `LEN` and the whole payload. -/
def decode : List Byte → Decoded
  | [] => .idle
  | op :: tail =>
    match opcodeOf op with
    | none => .reserved op tail
    | some .new => .frame .new tail
    | some .update => decodePayload op .update tail
    | some .finish => .frame .finish tail
    | some .digestHex => decodePayload op .digestHex tail

/-- The frame of a command (R56 to R58), for commands that have one (`Instr.wf`). -/
def encode : Instr → List Byte
  | .new => [opcodeByte .new]
  | .update chunk => opcodeByte .update :: (Machine.lenBytes chunk ++ chunk)
  | .finish => [opcodeByte .finish]
  | .digestHex chunk => opcodeByte .digestHex :: (Machine.lenBytes chunk ++ chunk)

/-- The bytes of a word numbered as the opcode table numbers it: bits 7..0 are frame byte 0, bits 15..8 byte 1. -/
def tableBytes (nbits w : Nat) : List Byte :=
  (List.range (nbits / 8)).map fun k => BitVec.ofNat 8 (w >>> (8 * k))

/-- The length of the frame that begins with these bytes, the missing ones read as zero (R56). -/
def frameLength : List Byte → Nat
  | [] => 0
  | op :: tail =>
    match (opcodeOf op).map formatOf with
    | some .p => 9 + Machine.lenField (tail ++ List.replicate 8 0)
    | _ => 1

/-- The frame a table word stands for: its own bytes, then zeros up to the end of the frame. -/
def tableFrame (nbits w : Nat) : List Byte :=
  tableBytes nbits w ++ List.replicate (frameLength (tableBytes nbits w) - (tableBytes nbits w).length) 0

/-- What the decoder reads from a table word; `none` where it reads no command. -/
def decodeTableWord (nbits w : Nat) : Option Instr :=
  match decode (tableFrame nbits w) with
  | .frame i _ => some i
  | _ => none

end Sys2Proof
end

