-- ==== Sys2Proof/Config.lean ====
section
/-! DEFINITION. What an implementation fixes (`00_scope.md` R6). Of the parameters of R6 only `BITCNT_OVERFLOW`
can be observed; the others (schedule depth, round strategy, buffer bypass) are unobservable and are handled where
they stand (R83, R84, R93), and the encodings and the reset behaviour are the spec's own (D2 to D6). -/

namespace Sys2Proof

/-- The two values of the parameter `BITCNT_OVERFLOW` (`92_eei_decisions.md` D10): what an implementation does with an
`UPDATE` that would take the bit counter to 2^64 or beyond. `refuse` is the spec's default: such an `UPDATE` has no
defined result. Under `wrap` the counter is reduced modulo 2^64 and everything else proceeds. -/
inductive OverflowMode where
  | refuse
  | wrap
  deriving DecidableEq, Repr, Inhabited

/-- `BITCNT_OVERFLOW`, an OPEN parameter of the spec (R6, D10, U6). No body: nothing can be proved about which of the
two modes a chip has, so a claim that is proved holds for both.
Mark: DESIGN CHOICE (left uninterpreted rather than fixed at the default), safe; log entry 1. -/
opaque Config.bitcntOverflow : OverflowMode

end Sys2Proof
end

