-- ==== Sys2Proof/Machine/Constants.lean ====
section
/-! DEFINITION. The immutable constants (`00_scope.md` R14 to R17): no command reads them as data or can change them,
so they are definitions and not state (R21). -/

namespace Sys2Proof.Machine

/-- `IV`, the initial digest state (R14). -/
def iv : StateWords := #v[0x67452301, 0xEFCDAB89, 0x98BADCFE, 0x10325476, 0xC3D2E1F0]

/-- `K0`, for rounds 0 to 19 (R15). -/
def k0 : Word := 0x5A827999
/-- `K1`, for rounds 20 to 39 (R15). -/
def k1 : Word := 0x6ED9EBA1
/-- `K2`, for rounds 40 to 59 (R15). -/
def k2 : Word := 0x8F1BBCDC
/-- `K3`, for rounds 60 to 79 (R15). -/
def k3 : Word := 0xCA62C1D6

/-- `HEXDIGITS`, the character codes of `0123456789abcdef` (R16). The characters are the source's, the codes are the
spec's, marked there as general knowledge (`93_implementation_defined.md` G2, D28). -/
def hexDigits : Vector Byte 16 :=
  #v[0x30, 0x31, 0x32, 0x33, 0x34, 0x35, 0x36, 0x37, 0x38, 0x39, 0x61, 0x62, 0x63, 0x64, 0x65, 0x66]

/-- `PAD_BYTE`, the first padding byte (R5, R106). -/
def padByte : Byte := 0x80

/-- `PAD_THRESHOLD`, the fill after which the length field no longer fits (R5, R107). -/
def padThreshold : Nat := 56

end Sys2Proof.Machine
end

