-- ==== Sys2Proof/Machine/State.lean ====
section
/-! DEFINITION. The state of one SHA1-CORE, as plain data (`10_state.md` R20), the command/response exchange beside it
(`30_encoding.md` R56, R61), the reasons a step can stop, and the state after reset (R37, R145). -/

namespace Sys2Proof.Machine

/-- The errors of the command set (R125): a rejected command, never a stop of the machine (R132). -/
inductive CmdError where
  /-- `UPDATE` or `FINISH` while `FIN = 1` (R126, R127). -/
  | invalidState
  /-- A reserved opcode byte (R59). -/
  | illegalCommand
  deriving DecidableEq, Repr

/-- The responses (R61). -/
inductive Response where
  /-- `OK`: `NEW` or `UPDATE` succeeded. -/
  | ok
  /-- `OK_DIGEST`: `FINISH` succeeded; it carries `DIGEST` and `HEX`. -/
  | okDigest (digest : DigestBytes) (hex : HexChars)
  /-- `OK_HEX`: `DIGEST_HEX` succeeded; it carries `HEX`. -/
  | okHex (hex : HexChars)
  /-- `ERR_INVALID_STATE` or `ERR_ILLEGAL_COMMAND`. -/
  | error (e : CmdError)
  deriving DecidableEq, Repr

/-- The phase of the session (R25). -/
inductive Phase where
  | active
  | finished
  deriving DecidableEq, Repr

/-- The architectural state of one instance of the hardware (R20): all of its persistent and output state. The
transients of R20 (`W`, `a` to `e`, `t`, `temp`, `f`, `k`, `L`) have no value outside the micro-operation that uses
them, and are local to its function there (R23, R30, R146, D24; log entry 7). -/
structure Regs where
  /-- `H[0..4]`, the digest state (R22). -/
  h : StateWords
  /-- `BUF[0..63]`, the pending block (R29); bytes from `FILL` on are stale, with no meaning. -/
  buf : Block
  /-- `FILL`, the fill count, 0 to 63 between commands (R26). -/
  fill : Fin 64
  /-- `BITCNT`, the 64-bit total of message bits (R27). -/
  bitcnt : DWord
  /-- `FIN`, the finished flag (R25). -/
  fin : Bool
  /-- `DIGEST[0..19]`, absent while no digest exists (R31, D13). -/
  digest : Option DigestBytes
  /-- `HEX[0..39]`, absent while no digest exists (R31, D13). -/
  hex : Option HexChars
  deriving DecidableEq, Repr

/-- The state a step reads and writes: the registers, and the model's own record of the exchange with the host
(log entry 2): what the host has issued and the core has not yet taken, and what the core has answered. -/
structure State where
  /-- The instance's registers. -/
  regs : Regs
  /-- The command stream: the bytes the host has issued and no step has taken yet, frame after frame with no gap
  (R56), first byte next. -/
  frames : List Byte
  /-- The responses given, in order, oldest first (R61). -/
  responses : List Response
  /-- The host asks for a hardware reset, which the next step performs (R145). -/
  resetReq : Bool
  deriving DecidableEq, Repr

/-- Reasons the machine stops with a fault. There is none: an error of this hardware is the response of one rejected
command and never halts, locks or resets the core (R132), no arithmetic faults (R128), and every index of every rule
lies inside its array (R47). Nothing raises a fault, so the type has no constructor. -/
inductive Fault where
  deriving DecidableEq, Repr

/-- Reasons a step, or a read by the host, has no meaning. -/
inductive Refusal where
  /-- An instruction that has no meaning yet. Only an arm of `exec` may answer it; none does. Safe. -/
  | notModelled (mnemonic : String)
  /-- Raised by `step` at a format `P` frame with bytes missing: it is no command, and the spec gives a model no move
  for it (R60, U15). Safe: nothing can be proved of what follows. -/
  | truncatedFrame
  /-- Raised by `UPDATE` and `DIGEST_HEX` where the bit counter would reach 2^64 and `BITCNT_OVERFLOW` is `refuse`:
  the spec gives it no defined result (D10, U6). Safe. -/
  | counterCapacity
  /-- Raised by a host's read of `DIGEST` or `HEX` while there is none (R31, D13, U4); no step raises it. Safe. -/
  | digestAbsent
  deriving DecidableEq, Repr

/-- The registers after reset (R37, R145): what `NEW` leaves. The spec gives `BUF` no reset value and no rule reads a
byte of it before writing it (R29, R146); it holds zeros here.
Mark: DESIGN CHOICE (`BUF` zero), unsafe; log entry 3. -/
def Regs.reset : Regs where
  h := iv
  buf := Vector.replicate 64 0
  fill := 0
  bitcnt := 0
  fin := false
  digest := none
  hex := none

/-- The machine right after reset (R145): a session exists, no command has been issued and none answered. -/
def State.reset : State where
  regs := Regs.reset
  frames := []
  responses := []
  resetReq := false

end Sys2Proof.Machine
end

