-- ==== Sys2Proof/Machine/Ops.lean ====
section
/-! DEFINITION. The named operations over the registers and over the command/response exchange. Each register is
written through its own operation; a command ends in exactly one of `accept` and `reject` (`30_encoding.md` R61). -/

namespace Sys2Proof.Machine

/-- Write `H[0..4]`. -/
def Regs.withH (v : StateWords) (c : Regs) : Regs := { c with h := v }
/-- Write `BUF[0..63]`. -/
def Regs.withBuf (v : Block) (c : Regs) : Regs := { c with buf := v }
/-- Write `FILL`. -/
def Regs.withFill (v : Fin 64) (c : Regs) : Regs := { c with fill := v }
/-- Write `BITCNT`. -/
def Regs.withBitcnt (v : DWord) (c : Regs) : Regs := { c with bitcnt := v }
/-- Write `FIN`. -/
def Regs.withFin (v : Bool) (c : Regs) : Regs := { c with fin := v }
/-- Write `DIGEST` and `HEX`, which are valid or absent together (R31). -/
def Regs.withOutput (v : Option (DigestBytes × HexChars)) (c : Regs) : Regs :=
  { c with digest := v.map Prod.fst, hex := v.map Prod.snd }

/-- Replace the registers. -/
def State.withRegs (c : Regs) (s : State) : State := { s with regs := c }
/-- Replace what is left of the command stream. -/
def State.withFrames (bytes : List Byte) (s : State) : State := { s with frames := bytes }
/-- Set or clear the reset request. -/
def State.withResetReq (b : Bool) (s : State) : State := { s with resetReq := b }
/-- Give a response, after those already given (R61). -/
def State.respond (r : Response) (s : State) : State := { s with responses := s.responses ++ [r] }

/-- A command completes: all its register writes, then its one response (R50, R61). -/
def accept (c : Regs) (r : Response) (s : State) : Host.Outcome State Fault Refusal :=
  .next ((s.withRegs c).respond r)

/-- Error entry (R131): the command writes no register; its response is the error alone; the core then takes the next
command as if this one had not been issued. There is no handler, and nothing to return from (R133). -/
def reject (e : CmdError) (s : State) : Host.Outcome State Fault Refusal :=
  .next (s.respond (.error e))

/-- Hardware reset (R145): the registers take their reset values, whatever they held; no response is given. What the
host has issued and what the core has answered are the host's and stay (log entry 4). -/
def State.takeReset (s : State) : State := (s.withRegs Regs.reset).withResetReq false

/-- The host issues command bytes (R140): they join the end of the command stream. -/
def State.send (bytes : List Byte) (s : State) : State := s.withFrames (s.frames ++ bytes)

/-- The host asks for a hardware reset (R145); the next step performs it. -/
def State.requestReset (s : State) : State := s.withResetReq true

/-- The host reads `DIGEST` (R31, R52, R154): the value while there is one, refused while there is none. A read changes
nothing. -/
def State.readDigest (s : State) : Except Refusal DigestBytes :=
  match s.regs.digest with
  | some d => .ok d
  | none => .error .digestAbsent

/-- The host reads `HEX` (R31, R52, R154), as `readDigest`. -/
def State.readHex (s : State) : Except Refusal HexChars :=
  match s.regs.hex with
  | some x => .ok x
  | none => .error .digestAbsent

end Sys2Proof.Machine
end

