-- ==== Sys2Proof/Machine/Compression.lean ====
section
/-! DEFINITION. The compression core (`40_compression.md`): `PARSE`, `SCHED`, `ROUND` in its four kinds, the add-back,
and `COMPRESS` assembled from them (R80). The transients live only inside these functions (R82). -/

namespace Sys2Proof.Machine

/-- `PARSE(block)` (R71, R42): `W[i] = MemRead(block:4i, 4)` for `i` in [0,16). -/
def parse (block : Block) : Vector Word 16 :=
  Vector.ofFn fun i => BitVec.ofNat 32 (memRead block (4 * i.val) 4)

/-- One turn of the loop of `SCHED` (R72), at `t = i + 16`:
`W[t] <- rotl_1(W[t-3] ^ W[t-8] ^ W[t-14] ^ W[t-16])`. -/
def schedStep (W : Schedule) (i : Fin 64) : Schedule :=
  W.set (i.val + 16) (rotl 1 (W[i.val + 13] ^^^ W[i.val + 8] ^^^ W[i.val + 2] ^^^ W[i.val]))

/-- `SCHED` (R72): `W[0..15]` from `PARSE`, then `W[16..79]` for `t` ascending. The zeros that stand in `W[16..79]` at
the start are never read: each is written first (R82; `Laws/Compression.lean`, `sched_ignores_start`). -/
def schedFrom (start : Vector Word 64) (w : Vector Word 16) : Schedule :=
  (List.finRange 64).foldl schedStep (w ++ start)

/-- The expanded schedule of 16 parsed words (R72). -/
def sched (w : Vector Word 16) : Schedule := schedFrom (Vector.replicate 64 0) w

/-- The working variables `a` to `e` (R23). -/
structure Work where
  a : Word
  b : Word
  c : Word
  d : Word
  e : Word
  deriving DecidableEq, Repr

/-- The four kinds of round (R75 to R78). -/
inductive RoundKind where
  | kind0
  | kind1
  | kind2
  | kind3
  deriving DecidableEq, Repr

/-- The kind of round `t`, selected by range (R74). -/
def kindOf (t : Fin 80) : RoundKind :=
  if t.val < 20 then .kind0
  else if t.val < 40 then .kind1
  else if t.val < 60 then .kind2
  else .kind3

/-- `F(t)(b, c, d)` by kind (R75 to R78). -/
def roundF : RoundKind → Word → Word → Word → Word
  | .kind0, b, c, d => (b &&& c) ||| (~~~b &&& d)
  | .kind1, b, c, d => b ^^^ c ^^^ d
  | .kind2, b, c, d => (b &&& c) ||| (b &&& d) ||| (c &&& d)
  | .kind3, b, c, d => b ^^^ c ^^^ d

/-- `K(t)` by kind (R15, R75 to R78). -/
def roundK : RoundKind → Word
  | .kind0 => k0
  | .kind1 => k1
  | .kind2 => k2
  | .kind3 => k3

/-- `temp = rotl_5(a) + f + e + w + k`, modulo 2^32 (R74). -/
def roundTemp (t : Fin 80) (w : Word) (r : Work) : Word :=
  rotl 5 r.a + roundF (kindOf t) r.b r.c r.d + r.e + w + roundK (kindOf t)

/-- `ROUND(t)` with its schedule word `w = W[t]` (R74); the assignment is simultaneous (R158). -/
def roundStep (t : Fin 80) (w : Word) (r : Work) : Work :=
  ⟨roundTemp t w r, r.a, rotl 30 r.b, r.c, r.d⟩

/-- The working variables before a round, from those after it (R85). -/
def roundInverse (t : Fin 80) (w : Word) (r : Work) : Work :=
  ⟨r.b, rotl 2 r.c, r.d, r.e,
   r.a - (rotl 5 r.b + roundF (kindOf t) (rotl 2 r.c) r.d r.e + w + roundK (kindOf t))⟩

/-- Step 3 (R73): the working variables start as the digest state. -/
def workOf (h : StateWords) : Work := ⟨h[0], h[1], h[2], h[3], h[4]⟩

/-- The 80 rounds, `t` ascending, each exactly once (R74). -/
def rounds (W : Schedule) (r : Work) : Work :=
  (List.finRange 80).foldl (fun r t => roundStep t W[t] r) r

/-- Step 5 (R79): each state word plus the corresponding final working variable, modulo 2^32. -/
def addBack (h : StateWords) (r : Work) : StateWords :=
  #v[h[0] + r.a, h[1] + r.b, h[2] + r.c, h[3] + r.d, h[4] + r.e]

/-- The compression function from state `h` (R70, R80): a total function of its two operands. -/
def compressFn (h : StateWords) (block : Block) : StateWords :=
  addBack h (rounds (sched (parse block)) (workOf h))

/-- `COMPRESS(block)` on the registers (R70): it writes `H` and no other register. -/
def Regs.compress (block : Block) (c : Regs) : Regs := c.withH (compressFn c.h block)

end Sys2Proof.Machine
end

