-- ==== Sys2Proof/Machine/Flags.lean ====
section
/-! DEFINITION. The one flag, `FIN` (`10_state.md` R25), and the check it is there for (`60_exceptions.md` R130). No
arithmetic operation sets a flag: there is no carry, overflow, zero or sign flag (R25, R81). -/

namespace Sys2Proof.Machine

/-- The phase the session is in (R25): `FIN = 0` is `ACTIVE`, `FIN = 1` is `FINISHED`. -/
def Regs.phase (c : Regs) : Phase := if c.fin then .finished else .active

/-- The phase check with which `UPDATE` and `FINISH` begin, before anything else is looked at (R126, R127, R130): in
phase `FINISHED` the command is rejected with `InvalidState`, in phase `ACTIVE` it runs. -/
def requireActive (run : Host.Outcome State Fault Refusal) (s : State) : Host.Outcome State Fault Refusal :=
  match s.regs.phase with
  | .finished => reject .invalidState s
  | .active => run

end Sys2Proof.Machine
end

