-- ==== Sys2Proof/Machine/Streaming.lean ====
section
/-! DEFINITION. The streaming unit (`41_streaming.md`): `NEW`, `UPDATE`, and the micro-operation `ABSORB`. -/

namespace Sys2Proof.Machine

/-- The register writes of `NEW` (R90): a fresh session. `BUF` is not written. -/
def Regs.newSession (c : Regs) : Regs :=
  ((((c.withH iv).withFill 0).withBitcnt 0).withFin false).withOutput none

/-- `ABSORB(x)` (R92): one stream byte into the buffer; when that fills it, compress it and clear the count. -/
def Regs.absorb (x : Byte) (c : Regs) : Regs :=
  let c' := c.withBuf (c.buf.set c.fill.val x)
  if h : c.fill.val < 63 then c'.withFill ⟨c.fill.val + 1, by omega⟩
  else (c'.compress c'.buf).withFill 0

/-- `ABSORB` of each byte, first byte first (R46, R93). -/
def Regs.absorbAll (bytes : List Byte) (c : Regs) : Regs := bytes.foldl (fun c x => c.absorb x) c

/-- `COMPRESS` of `q` whole blocks taken from the front of `bytes`, in order, from state `h` (R91 part B, R97). -/
def hashBlocks : Nat → StateWords → List Byte → StateWords
  | 0, h, _ => h
  | q + 1, h, bytes => hashBlocks q (compressFn h (blockOf bytes)) (bytes.drop 64)

/-- Part A of `UPDATE` (R91): how many bytes of a chunk of `n` top up a partial block. -/
def Regs.topUp (n : Nat) (c : Regs) : Nat := if c.fill.val = 0 then 0 else min n (64 - c.fill.val)

/-- How many whole blocks of a chunk of `n` bytes go directly to `COMPRESS` (R91 part B). -/
def Regs.strides (n : Nat) (c : Regs) : Nat := (n - c.topUp n) / 64

/-- How many bytes of a chunk of `n` remain for the empty buffer after parts A and B (R91 part C). -/
def Regs.remainder (n : Nat) (c : Regs) : Nat := (n - c.topUp n) % 64

/-- The register writes of `UPDATE` (R91): A, top up the partial block, which compresses it when it fills; B, whole
blocks straight from the payload; C, the remainder into the buffer; then the counter (R94). Parts A and C store their
bytes by `ABSORB` (R92). Under `wrap` the counter's sum is taken modulo 2^64 (D10). -/
def Regs.update (chunk : List Byte) (c : Regs) : Regs :=
  let n := chunk.length
  let k := c.topUp n
  let q := c.strides n
  let cA := c.absorbAll (chunk.take k)
  let cB := cA.withH (hashBlocks q cA.h (chunk.drop k))
  let cC := cB.absorbAll (chunk.drop (k + 64 * q))
  cC.withBitcnt (cC.bitcnt + BitVec.ofNat 64 (bitsOf n))

/-- `BITCNT + 8n` stays in the counter's capacity, below 2^64 (R91, R94, D10). -/
def Regs.fits (n : Nat) (c : Regs) : Bool := decide (c.bitcnt.toNat + bitsOf n < 2 ^ 64)

/-- Whether an `UPDATE` of `n` bytes has a defined result: within the counter's capacity always, beyond it where
`BITCNT_OVERFLOW` is `wrap` (D10). -/
def Regs.admits (n : Nat) (c : Regs) : Bool := c.fits n || Config.bitcntOverflow == .wrap

/-- `NEW` (R90): accepted in either phase, at any point of a stream. -/
def execNew (s : State) : Host.Outcome State Fault Refusal := accept s.regs.newSession .ok s

/-- `UPDATE chunk` (R91): rejected while finished (R126), else the stream is extended; beyond the counter's capacity
as `BITCNT_OVERFLOW` says (D10). -/
def execUpdate (chunk : List Byte) (s : State) : Host.Outcome State Fault Refusal :=
  requireActive
    (if s.regs.admits chunk.length then accept (s.regs.update chunk) .ok s else .refused .counterCapacity) s

end Sys2Proof.Machine
end

