-- ==== Sys2Proof/Machine/Finalization.lean ====
section
/-! DEFINITION. The finalizer and serializer (`42_finalization.md`): `PAD` in its five steps, `SERIALIZE`, `HEXRENDER`,
`FINISH`, and `DIGEST_HEX`. -/

namespace Sys2Proof.Machine

/-- Step 1 of `PAD` (R106): the byte 0x80 after the buffered bytes. -/
def Regs.appendMarker (c : Regs) : Regs := c.withBuf (c.buf.set c.fill.val padByte)

/-- The condition of step 2 (R107): with `r` buffered bytes and the marker, more than 56 bytes are filled. -/
def needsExtraBlock (r : Nat) : Bool := decide (padThreshold < r + 1)

/-- Step 2 (R107), where its condition holds: zero-pad the block that holds the marker, compress it, and start a fresh
all-zero buffer. `FILL` still is the `r` of R106 when this begins. -/
def Regs.extraBlock (c : Regs) : Regs :=
  let full := c.withBuf (zeroFill c.buf (c.fill.val + 1) 64)
  let done := (full.compress full.buf).withFill 0
  done.withBuf (zeroFill done.buf 0 64)

/-- Step 3 (R108): zeros from `lo` up to byte 56. -/
def Regs.zeroTo56 (lo : Nat) (c : Regs) : Regs := c.withBuf (zeroFill c.buf lo 56)

/-- Step 4 (R109, R43): `MemWrite(BUF:56, 8, L)`. -/
def Regs.appendLength (L : DWord) (c : Regs) : Regs := c.withBuf (memWrite c.buf 56 (be64Bytes L))

/-- Step 5 (R110): the last compression, and the fill count cleared. -/
def Regs.finalBlock (c : Regs) : Regs := (c.compress c.buf).withFill 0

/-- Steps 1 to 3 of `PAD` (R106 to R108), `r` being the fill count before any of them: the marker, the extra block
where it is needed, then zeros until exactly 56 bytes are filled. -/
def Regs.padTo56 (c : Regs) : Regs :=
  if needsExtraBlock c.fill.val then c.appendMarker.extraBlock.zeroTo56 0
  else c.appendMarker.zeroTo56 (c.fill.val + 1)

/-- `PAD` (R106 to R110): the length is `BITCNT` as it stands before the padding (R109, R156). -/
def Regs.pad (c : Regs) : Regs := (c.padTo56.appendLength c.bitcnt).finalBlock

/-- `SERIALIZE` (R111, R44): the five state words as 20 big-endian bytes, `H[0]` first. -/
def serialize (h : StateWords) : DigestBytes :=
  Vector.ofFn fun j => (be32Bytes h[j.val / 4])[j.val % 4]'(Nat.mod_lt _ (by decide))

/-- The character of one hexadecimal digit (R16, R112). -/
def hexDigit (v : BitVec 4) : Byte := hexDigits[v.toNat]

/-- `HEXRENDER` (R112, R45): two characters per byte, high nibble first. -/
def hexRender (d : DigestBytes) : HexChars :=
  Vector.ofFn fun m =>
    if m.val % 2 = 0 then hexDigit (d[m.val / 2].extractLsb' 4 4) else hexDigit (d[m.val / 2].extractLsb' 0 4)

/-- Step 6 of `FINISH` (R111 to R113): `DIGEST` from `H`, `HEX` from `DIGEST`, and `FIN <- 1`. -/
def Regs.emit (c : Regs) : Regs :=
  (c.withOutput (some (serialize c.h, hexRender (serialize c.h)))).withFin true

/-- The register writes of `FINISH` (R113). -/
def Regs.finish (c : Regs) : Regs := c.pad.emit

/-- `FINISH` (R113): rejected while finished (R127), else padded and compressed, with the digest in the response. -/
def execFinish (s : State) : Host.Outcome State Fault Refusal :=
  requireActive
    (accept s.regs.finish
      (.okDigest (serialize s.regs.finish.h) (hexRender (serialize s.regs.finish.h))) s) s

/-- The register writes of `DIGEST_HEX chunk` (R116): those of `NEW`, `UPDATE chunk` and `FINISH`, in that order. -/
def Regs.digestHex (chunk : List Byte) (c : Regs) : Regs := (c.newSession.update chunk).finish

/-- `DIGEST_HEX chunk` (R116): accepted in either phase; the responses of its parts are suppressed and it answers the
string alone. A chunk beyond the counter's capacity is as its `UPDATE` is (D10). -/
def execDigestHex (chunk : List Byte) (s : State) : Host.Outcome State Fault Refusal :=
  if s.regs.newSession.admits chunk.length then
    accept (s.regs.digestHex chunk) (.okHex (hexRender (serialize (s.regs.digestHex chunk).h))) s
  else .refused .counterCapacity

end Sys2Proof.Machine
end

