-- ==== Sys2Proof/Machine/Dispatch.lean ====
section
/-! DEFINITION. One arm per command of the opcode table. -/

namespace Sys2Proof.Machine

def exec (i : Instr) (s : State) : Host.Outcome State Fault Refusal :=
  match i with
  | .new => Sys2Proof.Machine.execNew s
  | .update chunk => Sys2Proof.Machine.execUpdate chunk s
  | .finish => Sys2Proof.Machine.execFinish s
  | .digestHex chunk => Sys2Proof.Machine.execDigestHex chunk s

end Sys2Proof.Machine
end

