-- ==== Sys2Proof/Machine/Fetch.lean ====
section
/-! DEFINITION. Taking the next command from the command stream (`30_encoding.md` R65; `20_memory.md` R49, R50): one
step per command, whole frames consumed, and the reset that the host may ask for between commands (R145). There is no
program counter and no instruction fetch (R24, R53): what stands next in the stream is what runs next. -/

namespace Sys2Proof.Machine

/-- Run what the decoder found, on a state whose command stream no longer holds it. With no command issued the core
waits and changes nothing (R140; log entry 5); a reserved opcode is rejected (R59); a truncated frame has no move
(R60). -/
def runDecoded (d : Decoded) (s : State) : Host.Outcome State Fault Refusal :=
  match d with
  | .idle => .next s
  | .frame i rest => exec i (s.withFrames rest)
  | .reserved _ rest => reject .illegalCommand (s.withFrames rest)
  | .truncated _ => .refused .truncatedFrame

/-- The next step of the core: the reset, if the host has asked for it; else the next frame. -/
def runNext (s : State) : Host.Outcome State Fault Refusal :=
  if s.resetReq then .next s.takeReset else runDecoded (decode s.frames) s

/-- The state with one frame as its whole command stream and no reset asked for, so that the next step runs it. -/
def State.placeFrame (frame : List Byte) (s : State) : State := (s.withFrames frame).withResetReq false

end Sys2Proof.Machine
end

