-- ==== Sys2Proof/Machine/Step.lean ====
section
/-! DEFINITION. One step of the machine: one command, atomically (`20_memory.md` R49). -/

namespace Sys2Proof.Machine

/-- One step (R49): the next command of the stream, or the reset the host asked for. -/
def step (s : State) : Host.Outcome State Fault Refusal := runNext s

/-- The state with an opcode-table word, completed with zeros to a whole frame, as its command stream: the next step
runs it (log entry 6 says how commands come to run from reset). -/
def State.withFetchWord (s : State) (nbits w : Nat) : State := s.placeFrame (tableFrame nbits w)

end Sys2Proof.Machine
end

