-- ==== Sys2Proof/Machine/Assembler.lean ====
section
/-! DEFINITION. The notation for test programs (`30_encoding.md` R62, D18): one command per line, its chunk as quoted
text, as hexadecimal bytes, or as a byte repeated. It is no part of the core; it spells frames for it. -/

namespace Sys2Proof.Machine

/-- The double quote that opens and closes a chunk. -/
def quote : Char := Char.ofNat 0x22

/-- The byte code of a character of quoted text, where `a` is 0x61 (R62; `93_implementation_defined.md` G2). -/
def charByte (c : Char) : Option Byte := if c.toNat < 128 then some (BitVec.ofNat 8 c.toNat) else none

/-- The value of a decimal digit. -/
def decVal (c : Char) : Option Nat := if 0x30 ≤ c.toNat ∧ c.toNat ≤ 0x39 then some (c.toNat - 0x30) else none

/-- The value of a hexadecimal digit, in either case (log entry 18). -/
def hexVal (c : Char) : Option Nat :=
  if 0x30 ≤ c.toNat ∧ c.toNat ≤ 0x39 then some (c.toNat - 0x30)
  else if 0x61 ≤ c.toNat ∧ c.toNat ≤ 0x66 then some (c.toNat - 0x57)
  else if 0x41 ≤ c.toNat ∧ c.toNat ≤ 0x46 then some (c.toNat - 0x37)
  else none

/-- Two hexadecimal digits as a byte. -/
def hexByte (hi lo : Char) : Option Byte :=
  match hexVal hi, hexVal lo with
  | some h, some l => some (BitVec.ofNat 8 (16 * h + l))
  | _, _ => none

/-- Quoted text after its opening quote: one byte per character, no terminator (R62), and what follows. -/
def parseText : List Char → Option (List Byte × List Char)
  | [] => none
  | c :: r =>
    if c = quote then some ([], r)
    else match charByte c, parseText r with
      | some b, some (bs, rest) => some (b :: bs, rest)
      | _, _ => none

/-- Hexadecimal bytes after their opening quote, and what follows. -/
def parseHex : List Char → Option (List Byte × List Char)
  | [] => none
  | [c] => if c = quote then some ([], []) else none
  | hi :: lo :: r =>
    if hi = quote then some ([], lo :: r)
    else match hexByte hi lo, parseHex r with
      | some b, some (bs, rest) => some (b :: bs, rest)
      | _, _ => none

/-- Decimal digits, after the value read so far, and what follows. -/
def parseDigits : Nat → List Char → Nat × List Char
  | n, [] => (n, [])
  | n, c :: r =>
    match decVal c with
    | some d => parseDigits (10 * n + d) r
    | none => (n, c :: r)

/-- A decimal count of at least one digit, and what follows. -/
def parseCount : List Char → Option (Nat × List Char)
  | [] => none
  | c :: r => (decVal c).map fun d => parseDigits d r

/-- A chunk in one of the three notations of R62, and what follows. -/
def parseChunk : List Char → Option (List Byte × List Char)
  | [] => none
  | c :: r =>
    if c = quote then parseText r
    else match c, r with
      | 'x', q :: r' => if q = quote then parseHex r' else none
      | hi, lo :: '*' :: r' =>
        match hexByte hi lo, parseCount r' with
        | some b, some (n, rest) => some (List.replicate n b, rest)
        | _, _ => none
      | _, _ => none

/-- A blank between the parts of a line. -/
def isBlank (c : Char) : Bool := c = ' ' || c = '\t'

/-- A character of a mnemonic. -/
def isWord (c : Char) : Bool := !isBlank c && c ≠ ';'

/-- Nothing more stands on the line: its end, or a comment (R62). -/
def endsLine (l : List Char) : Bool :=
  match l.dropWhile isBlank with
  | [] => true
  | c :: _ => c = ';'

/-- The mnemonics of R58. -/
def mnemonicOf : List Char → Option Opcode
  | ['N', 'E', 'W'] => some .new
  | ['U', 'P', 'D', 'A', 'T', 'E'] => some .update
  | ['F', 'I', 'N', 'I', 'S', 'H'] => some .finish
  | ['D', 'I', 'G', 'E', 'S', 'T', '_', 'H', 'E', 'X'] => some .digestHex
  | _ => none

/-- The operand of a line: a command without one, or with a chunk, and nothing more but a comment. -/
def assembleOperand (op : Opcode) (r : List Char) : Option Instr :=
  match op with
  | .new => if endsLine r then some .new else none
  | .finish => if endsLine r then some .finish else none
  | .update => (parseChunk (r.dropWhile isBlank)).bind fun p => if endsLine p.2 then some (.update p.1) else none
  | .digestHex => (parseChunk (r.dropWhile isBlank)).bind fun p => if endsLine p.2 then some (.digestHex p.1) else none

/-- One line (R62): a command, or no command where the line is empty or only a comment; `none` where it is neither. -/
def assembleLine (line : List Char) : Option (List Instr) :=
  if endsLine line then some []
  else
    let l := line.dropWhile isBlank
    (mnemonicOf (l.takeWhile isWord)).bind fun op => (assembleOperand op (l.dropWhile isWord)).map fun i => [i]

/-- The lines of a source text. -/
def sourceLines : List Char → List (List Char)
  | [] => [[]]
  | c :: r =>
    if c = '\n' then [] :: sourceLines r
    else match sourceLines r with
      | l :: ls => (c :: l) :: ls
      | [] => [[c]]

/-- The commands of a list of lines, in order; `none` where a line is none of R62's. -/
def assembleLines : List (List Char) → Option (List Instr)
  | [] => some []
  | l :: ls =>
    match assembleLine l, assembleLines ls with
    | some a, some b => some (a ++ b)
    | _, _ => none

/-- A test program as its commands (R62). -/
def assemble (source : List Char) : Option (List Instr) := assembleLines (sourceLines source)

/-- A test program as the bytes the host issues: frame after frame, with no gap (R56). -/
def assembleFrames (source : List Char) : Option (List Byte) := (assemble source).map fun is => is.flatMap encode

/-- The character of one hexadecimal digit. -/
def hexChar (v : BitVec 4) : Char := Char.ofNat (hexDigit v).toNat

/-- A chunk in the hexadecimal notation. -/
def chunkSource (chunk : List Byte) : List Char :=
  'x' :: quote :: (chunk.flatMap (fun b => [hexChar (b.extractLsb' 4 4), hexChar (b.extractLsb' 0 4)]) ++ [quote])

/-- A command as a line of R62. -/
def lineOf : Instr → List Char
  | .new => ['N', 'E', 'W']
  | .update chunk => ['U', 'P', 'D', 'A', 'T', 'E', ' '] ++ chunkSource chunk
  | .finish => ['F', 'I', 'N', 'I', 'S', 'H']
  | .digestHex chunk => ['D', 'I', 'G', 'E', 'S', 'T', '_', 'H', 'E', 'X', ' '] ++ chunkSource chunk

end Sys2Proof.Machine
end

