-- ==== Sys2Proof/Machine/Circular.lean ====
section
/-! DEFINITION. The permitted 16-word schedule store (`40_compression.md` R83; `90_conflicts.md` C3): a second
implementation of `PARSE`, `SCHED` and the rounds that keeps 16 schedule words. The machine uses the 80-word reference;
that this one computes the same function is a statement of its own. -/

namespace Sys2Proof.Machine

/-- The circular store's word for round `t`, and the store after it (R83): in round `t >= 16` the word
`rotl_1(w[(t-3) mod 16] ^ w[(t-8) mod 16] ^ w[(t-14) mod 16] ^ w[(t-16) mod 16])` replaces `w[t mod 16]` first. -/
def circularStep (w : Vector Word 16) (t : Fin 80) : Vector Word 16 :=
  if t.val < 16 then w
  else w.set (t.val % 16) (rotl 1 (w[(t.val - 3) % 16] ^^^ w[(t.val - 8) % 16] ^^^ w[(t.val - 14) % 16] ^^^
    w[(t.val - 16) % 16])) (Nat.mod_lt _ (by decide))

/-- One round with the circular store: refresh the store, then use `w[t mod 16]` as `W[t]` (R83). -/
def circularRound (p : Vector Word 16 × Work) (t : Fin 80) : Vector Word 16 × Work :=
  let w := circularStep p.1 t
  (w, roundStep t w[t.val % 16] p.2)

/-- The compression function with the 16-word store (R83). -/
def compressCircular (h : StateWords) (block : Block) : StateWords :=
  addBack h ((List.finRange 80).foldl circularRound (parse block, workOf h)).2

end Sys2Proof.Machine
end

