-- ==== Sys2Proof/Machine/Platform.lean ====
section
/-! DEFINITION. A platform of several instances (`60_exceptions.md` R137): the product of independent single-core
models. `N_INSTANCES` is the length of the list; the instances share nothing but the immutable constants. -/

namespace Sys2Proof.Machine

/-- A platform: the states of its instances (R137). -/
abbrev Platform := List State

/-- Every instance starts in the reset state (R137, R145). -/
def platformReset (n : Nat) : Platform := List.replicate n State.reset

/-- One step of instance `k` (R137): it is the single-core step on that instance's state; an instance that does not
exist takes no step. -/
def platformStep (k : Nat) (p : Platform) : Option (Host.Outcome Platform Fault Refusal) :=
  p[k]?.map fun s =>
    match step s with
    | .next t => .next (p.set k t)
    | .fault r => .fault r
    | .refused r => .refused r

end Sys2Proof.Machine
end

