-- ==== Sys2Proof/Machine/Responses.lean ====
section
/-! DEFINITION. The byte layout of responses (`30_encoding.md` R61), the spec's own transport (D4). -/

namespace Sys2Proof.Machine

/-- The status byte of an error (R61, R125). -/
def errorStatus : CmdError → Byte
  | .invalidState => 0x01
  | .illegalCommand => 0x02

/-- The bytes of a response (R61): the status, then what the command returns. -/
def responseBytes : Response → List Byte
  | .ok => [0x00]
  | .okDigest d x => 0x00 :: (d.toList ++ x.toList)
  | .okHex x => 0x00 :: x.toList
  | .error e => [errorStatus e]

/-- Every byte the core has answered, in order. -/
def outputBytes (s : State) : List Byte := s.responses.flatMap responseBytes

end Sys2Proof.Machine
end

