-- ==== Sys2Proof/Safety.lean ====
section
/-! DEFINITION. What claims are stated in: the digest of a byte stream in closed form (`42_finalization.md` R114), when
two register states can be told apart (`10_state.md` R29, R34), the invariants between commands (R35, R97), the states a
host can bring about, and the host's duties. -/

namespace Sys2Proof.Machine

/-- The padded message (R114): the stream, 0x80, the least number of zeros that makes whole blocks, and the stream's
bit length as 8 big-endian bytes. The length is reduced modulo 2^64, which matters only for a stream of 2^61 bytes or
more, under `BITCNT_OVERFLOW = wrap` (D10). -/
def padded (S : List Byte) : List Byte :=
  S ++ padByte :: (List.replicate ((119 - S.length % 64) % 64) 0 ++
    (be64Bytes (BitVec.ofNat 64 (bitsOf S.length))).toList)

/-- The digest state while a stream is open (R97): `IV` advanced by the stream's whole blocks in order. -/
def streamState (S : List Byte) : StateWords := hashBlocks (S.length / 64) iv S

/-- The digest state once the stream is finished (R114): `IV` advanced by every block of the padded message. -/
def finalState (S : List Byte) : StateWords := hashBlocks ((S.length + 8) / 64 + 1) iv (padded S)

/-- The digest of a stream (R114, R119), a function of the stream alone. -/
def sha1 (S : List Byte) : DigestBytes := serialize (finalState S)

/-- The number of blocks `UPDATE`s have compressed so far (R98): a function of the bit counter, and no register. -/
def Regs.blockCount (c : Regs) : Nat := c.bitcnt.toNat / 512

/-- Several `UPDATE`s, first chunk first (R46, R96). -/
def Regs.updates (chunks : List (List Byte)) (c : Regs) : Regs := chunks.foldl (fun c chunk => c.update chunk) c

/-- Two register states that differ in stale buffer bytes at most: `BUF[FILL..64)` has no meaning (R29, U3). -/
def Regs.Agrees (c d : Regs) : Prop :=
  c.h = d.h ∧ c.fill = d.fill ∧ c.bitcnt = d.bitcnt ∧ c.fin = d.fin ∧ c.digest = d.digest ∧ c.hex = d.hex ∧
    ∀ i : Fin 64, i < c.fill → c.buf[i] = d.buf[i]

/-- Two states that differ in stale buffer bytes at most. -/
def State.Agrees (s t : State) : Prop :=
  s.regs.Agrees t.regs ∧ s.frames = t.frames ∧ s.responses = t.responses ∧ s.resetReq = t.resetReq

/-- The relations between the registers that hold between commands (R35, R26, R27, R31): whole bytes are counted;
while active the fill count is the count of bytes modulo 64 and there is no digest; while finished the buffer is empty
and `DIGEST` and `HEX` are the serialization of `H`. -/
def Regs.Inv (c : Regs) : Prop :=
  c.bitcnt.toNat % 8 = 0 ∧
  (c.fin = false → c.fill.val = c.bitcnt.toNat / 8 % 64 ∧ c.digest = none ∧ c.hex = none) ∧
  (c.fin = true → c.fill = 0 ∧ c.digest = some (serialize c.h) ∧ c.hex = some (hexRender (serialize c.h)))

/-- The digest and the string of one `OK_DIGEST` response are forms of each other (R118). -/
def Response.Consistent : Response → Prop
  | .okDigest d x => x = hexRender d
  | _ => True

/-- `Regs.Inv`, and every response given so far consistent (R118). -/
def State.Inv (s : State) : Prop := s.regs.Inv ∧ ∀ r ∈ s.responses, r.Consistent

/-- The registers of an open session whose stream so far is `S`, in closed form (R97). -/
def Regs.Holds (S : List Byte) (c : Regs) : Prop :=
  c.fin = false ∧ c.h = streamState S ∧ c.fill.val = S.length % 64 ∧
  c.bitcnt = BitVec.ofNat 64 (bitsOf S.length) ∧
  c.digest = none ∧ c.hex = none ∧
  ∀ i : Fin 64, i < c.fill → S[64 * (S.length / 64) + i.val]? = some c.buf[i]

/-- The registers of a finished session whose stream was `S` (R113, R114). -/
def Regs.Digested (S : List Byte) (c : Regs) : Prop :=
  c.fin = true ∧ c.h = finalState S ∧ c.fill = 0 ∧ c.bitcnt = BitVec.ofNat 64 (bitsOf S.length) ∧
  c.digest = some (sha1 S) ∧ c.hex = some (hexRender (sha1 S))

/-- The registers are those of a session over the stream `S` (R35): open, holding the stream so far, or finished,
holding the digest of the whole of it. -/
def Regs.SessionOf (S : List Byte) (c : Regs) : Prop := c.Holds S ∨ c.Digested S

/-- The stream of the session after the next step, from the stream before it (R36, R46, R148): a fresh session has the
empty stream, an accepted `UPDATE` appends its chunk, `DIGEST_HEX` has its chunk, and nothing else changes it. -/
def State.nextStream (s : State) (S : List Byte) : List Byte :=
  if s.resetReq then []
  else match decode s.frames with
    | .frame .new _ => []
    | .frame (.update chunk) _ => if s.regs.fin then S else S ++ chunk
    | .frame .finish _ => S
    | .frame (.digestHex chunk) _ => chunk
    | .idle => S
    | .reserved _ _ => S
    | .truncated _ => S

/-- The states the host can bring about from reset (R140, R145): by steps of the core, by issuing command bytes, and
by asking for a reset. -/
inductive Reachable : State → Prop where
  | reset : Reachable State.reset
  | step {s t : State} : Reachable s → step s = .next t → Reachable t
  | send {s : State} (bytes : List Byte) : Reachable s → Reachable (s.send bytes)
  | requestReset {s : State} : Reachable s → Reachable s.requestReset

/-- The host's duty to deliver whole frames (R60), at the next frame. -/
def State.WholeFrame (s : State) : Prop := ∀ op : Byte, decode s.frames ≠ .truncated op

/-- The host's duty to stay within the bit counter's capacity (R155), at the next frame. -/
def State.WithinCapacity (s : State) : Prop :=
  match decode s.frames with
  | .frame (.update chunk) _ => s.regs.fin = true ∨ s.regs.fits chunk.length = true
  | .frame (.digestHex chunk) _ => chunk.length < 2 ^ 61
  | _ => True

end Sys2Proof.Machine
end

