-- ==== Sys2Proof/Certificates/Slice0/Obligations.lean ====
section
/-! DEFINITION. The statements for the provers. Each docstring says which rule or section of the spec it formalises. -/

open Sys2Proof Sys2Proof.Machine

/-! ## Frames and decoding (`30_encoding.md`) -/

/-- Decoding the frame of a command that has one gives that command and leaves the bytes after it (R56 to R58, R65). -/
def Obligations.DecodeEncodeRoundTrip : Prop :=
  ∀ (i : Instr) (rest : List Byte), i.wf = true → decode (encode i ++ rest) = .frame i rest

/-- The decoder reads a command only from that command's own frame, whole (R56, R60). -/
def Obligations.DecodeReadsWholeFrames : Prop :=
  ∀ (bytes : List Byte) (i : Instr) (rest : List Byte),
    decode bytes = .frame i rest → i.wf = true ∧ bytes = encode i ++ rest

/-- `LEN` is the 8 bytes after the opcode, big-endian; the chunk is the `LEN` bytes after it, in order; a `LEN` of 2^61
or more overflows the counter (R57). -/
def Obligations.LenFieldIsBigEndian : Prop :=
  (∀ (b0 b1 b2 b3 b4 b5 b6 b7 : Byte) (tail : List Byte),
    lenField ([b0, b1, b2, b3, b4, b5, b6, b7] ++ tail) =
      b0.toNat * 2 ^ 56 + b1.toNat * 2 ^ 48 + b2.toNat * 2 ^ 40 + b3.toNat * 2 ^ 32 +
        b4.toNat * 2 ^ 24 + b5.toNat * 2 ^ 16 + b6.toNat * 2 ^ 8 + b7.toNat) ∧
  (∀ len payload rest : List Byte, len.length = 8 → payload.length = be len →
    decode (0x02 :: (len ++ payload ++ rest)) = .frame (.update payload) rest ∧
    decode (0x04 :: (len ++ payload ++ rest)) = .frame (.digestHex payload) rest) ∧
  (∀ (n : Nat) (c : Regs), 2 ^ 61 ≤ n → c.fits n = false)

/-- The opcode map (R58): the four bytes, the format of each, and no other byte assigned. -/
def Obligations.OpcodeMap : Prop :=
  (∀ op : Byte,
    (op = 0x01 → opcodeOf op = some .new) ∧ (op = 0x02 → opcodeOf op = some .update) ∧
    (op = 0x03 → opcodeOf op = some .finish) ∧ (op = 0x04 → opcodeOf op = some .digestHex) ∧
    (op ≠ 0x01 → op ≠ 0x02 → op ≠ 0x03 → op ≠ 0x04 → opcodeOf op = none)) ∧
  formatOf .new = .n ∧ formatOf .update = .p ∧ formatOf .finish = .n ∧ formatOf .digestHex = .p

/-- A reserved opcode is a frame of one byte, answered `IllegalCommand` with no state changed (R59). -/
def Obligations.ReservedOpcodeIsRejected : Prop :=
  ∀ (s : State) (op : Byte) (rest : List Byte),
    s.resetReq = false → s.frames = op :: rest →
    op ≠ 0x01 → op ≠ 0x02 → op ≠ 0x03 → op ≠ 0x04 →
    decode s.frames = .reserved op rest ∧
    ∃ t : State, step s = .next t ∧ t.regs = s.regs ∧ t.frames = rest ∧
      t.responses = s.responses ++ [Response.error .illegalCommand] ∧ responseBytes (.error .illegalCommand) = [0x02]

/-- A format `P` frame with bytes missing stops the step by name. That it is no command and has no move is the spec's
(`30_encoding.md` section 5); that the step answers the refusal `truncatedFrame` is the model's choice, log entry 8. -/
def Obligations.TruncatedFrameHasNoMove : Prop :=
  ∀ (s : State) (op : Byte) (tail : List Byte),
    s.resetReq = false → s.frames = op :: tail → (op = 0x02 ∨ op = 0x04) →
    (tail.length < 8 ∨ tail.length < 8 + lenField tail) →
    step s = .refused .truncatedFrame

/-- Frames written out by hand from the encoding tables decode to the commands they stand for (section 2, and
`95_test_vectors.md` section 7). -/
def Obligations.SampleFramesDecode : Prop :=
  decode [0x01] = .frame .new [] ∧
  decode [0x02, 0, 0, 0, 0, 0, 0, 0, 3, 0x61, 0x62, 0x63] = .frame (.update [0x61, 0x62, 0x63]) [] ∧
  decode [0x03, 0x01] = .frame .finish [0x01] ∧
  decode [0x04, 0, 0, 0, 0, 0, 0, 0, 0] = .frame (.digestHex []) [] ∧
  decode [0x02, 0, 0, 0, 0, 0, 0, 1, 0, 0x61] = .truncated 0x02 ∧
  decode [0x05, 0x01] = .reserved 0x05 [0x01]

/-- A step runs the decoded command, on the state whose command stream no longer holds its frame (`30_encoding.md` section 8;
`20_memory.md` section 4). -/
def Obligations.StepRunsDecoded : Prop :=
  ∀ (s : State) (i : Instr) (rest : List Byte),
    s.resetReq = false → decode s.frames = .frame i rest → step s = exec i (s.withFrames rest)

/-- With no command issued and no reset asked for, the core waits and changes nothing. The model's choice: log
entry 5; `60_exceptions.md` section 8 lets the host hold a session idle for any time. -/
def Obligations.IdleStepChangesNothing : Prop :=
  ∀ s : State, s.resetReq = false → s.frames = [] → step s = .next s

/-- A command written as a line of the notation for test programs, its chunk in hexadecimal, is read back as that command
(`30_encoding.md` section 7; the details of the grammar are the model's choice, log entry 18). -/
def Obligations.AssemblyRoundTrip : Prop :=
  ∀ i : Instr, assembleLine (lineOf i) = some [i]

/-! ## Reset, `NEW` and the lifecycle -/

/-- Reset leaves a fresh session, whatever was there before, and gives no response (R145). -/
def Obligations.ResetLeavesFreshSession : Prop :=
  (State.reset.regs.h = #v[0x67452301, 0xEFCDAB89, 0x98BADCFE, 0x10325476, 0xC3D2E1F0] ∧
    State.reset.regs.fill = 0 ∧ State.reset.regs.bitcnt = 0 ∧ State.reset.regs.phase = .active ∧
    State.reset.regs.digest = none ∧ State.reset.regs.hex = none) ∧
  ∀ s : State,
    s.takeReset.regs.h = #v[0x67452301, 0xEFCDAB89, 0x98BADCFE, 0x10325476, 0xC3D2E1F0] ∧
    s.takeReset.regs.fill = 0 ∧ s.takeReset.regs.bitcnt = 0 ∧ s.takeReset.regs.phase = .active ∧
    s.takeReset.regs.digest = none ∧ s.takeReset.regs.hex = none ∧ s.takeReset.responses = s.responses

/-- A reset the host has asked for is what the next step performs, before any command; the commands not yet taken stay.
The model's choice: log entry 4; `70_reset_and_hazards.md` section 1 says only that a reset may be applied at any
time. -/
def Obligations.ResetRequestIsTakenFirst : Prop :=
  ∀ s : State, s.resetReq = true →
    step s = .next s.takeReset ∧ s.takeReset.frames = s.frames ∧ s.takeReset.resetReq = false

/-- `NEW` completes in every state: a fresh session, `BUF` not written, `OK` (R90). -/
def Obligations.NewStartsFreshSession : Prop :=
  encode .new = [0x01] ∧
  ∀ s : State, ∃ t : State, exec .new s = .next t ∧
    t.regs.h = #v[0x67452301, 0xEFCDAB89, 0x98BADCFE, 0x10325476, 0xC3D2E1F0] ∧ t.regs.fill = 0 ∧
    t.regs.bitcnt = 0 ∧ t.regs.fin = false ∧ t.regs.digest = none ∧ t.regs.hex = none ∧
    t.regs.buf = s.regs.buf ∧ t.responses = s.responses ++ [Response.ok]

/-- The lifecycle table (R148): the next phase and the effect of every command in every phase, of a reserved opcode and
of reset. `UPDATE` and `DIGEST_HEX` are within the counter's capacity here; beyond it see `CapacityIsAParameter`. -/
def Obligations.LifecycleTable : Prop :=
  ∀ s : State,
    (∃ t : State, exec .new s = .next t ∧ t.regs.phase = .active) ∧
    (∀ chunk, s.regs.phase = .active → s.regs.fits chunk.length = true →
      ∃ t : State, exec (.update chunk) s = .next t ∧ t.regs.phase = .active ∧
        t.responses = s.responses ++ [Response.ok]) ∧
    (∀ chunk, s.regs.phase = .finished →
      ∃ t : State, exec (.update chunk) s = .next t ∧ t.regs = s.regs ∧
        t.responses = s.responses ++ [Response.error .invalidState]) ∧
    (s.regs.phase = .active →
      ∃ (t : State) (d : DigestBytes) (x : HexChars), exec .finish s = .next t ∧ t.regs.phase = .finished ∧
        t.responses = s.responses ++ [Response.okDigest d x]) ∧
    (s.regs.phase = .finished →
      ∃ t : State, exec .finish s = .next t ∧ t.regs = s.regs ∧
        t.responses = s.responses ++ [Response.error .invalidState]) ∧
    (∀ chunk, chunk.length < 2 ^ 61 →
      ∃ (t : State) (x : HexChars), exec (.digestHex chunk) s = .next t ∧ t.regs.phase = .finished ∧
        t.responses = s.responses ++ [Response.okHex x]) ∧
    (∀ op rest, s.resetReq = false → decode s.frames = .reserved op rest →
      ∃ t : State, step s = .next t ∧ t.regs = s.regs ∧
        t.responses = s.responses ++ [Response.error .illegalCommand]) ∧
    (s.resetReq = true → ∃ t : State, step s = .next t ∧ t.regs.phase = .active)

/-! ## `UPDATE` (`41_streaming.md`) -/

/-- `ABSORB` stores its byte at `BUF[FILL]`; a byte that fills the buffer has it compressed and the count cleared, any
other adds one to the count; no other register is written (`41_streaming.md` section 2, which marks the micro-operation
as derived from `UPDATE`). -/
def Obligations.AbsorbOneByte : Prop :=
  ∀ (c : Regs) (x : Byte),
    (c.absorb x).buf = c.buf.set c.fill.val x ∧
    (c.fill.val = 63 → (c.absorb x).h = compressFn c.h (c.buf.set c.fill.val x) ∧ (c.absorb x).fill = 0) ∧
    (c.fill.val < 63 → (c.absorb x).h = c.h ∧ (c.absorb x).fill.val = c.fill.val + 1) ∧
    (c.absorb x).bitcnt = c.bitcnt ∧ (c.absorb x).fin = c.fin ∧
    (c.absorb x).digest = c.digest ∧ (c.absorb x).hex = c.hex

/-- While active and within the counter's capacity, `UPDATE` completes, and its stride-wise writes are those of `ABSORB`
of each byte followed by the counter update, but for stale buffer bytes (`41_streaming.md` section 2, marked there as
derived; that the model strides is log entry 10). -/
def Obligations.UpdateIsBytewise : Prop :=
  ∀ (s : State) (chunk : List Byte),
    s.regs.fin = false → s.regs.bitcnt.toNat + 8 * chunk.length < 2 ^ 64 →
    ∃ t : State, exec (.update chunk) s = .next t ∧
      t.regs.Agrees ((s.regs.absorbAll chunk).withBitcnt (s.regs.bitcnt + BitVec.ofNat 64 (8 * chunk.length))) ∧
      t.responses = s.responses ++ [Response.ok]

/-- The counter grows by 8 times the chunk's length, once per accepted `UPDATE`, never for a rejected one, so that after
several it is 8 times the total (R94). -/
def Obligations.UpdateCountsMessageBits : Prop :=
  (∀ (s : State) (chunk : List Byte),
    s.regs.fin = false → s.regs.bitcnt.toNat + 8 * chunk.length < 2 ^ 64 →
    ∃ t : State, exec (.update chunk) s = .next t ∧
      t.regs.bitcnt.toNat = s.regs.bitcnt.toNat + 8 * chunk.length) ∧
  (∀ (s : State) (chunk : List Byte), s.regs.fin = true →
    ∃ t : State, exec (.update chunk) s = .next t ∧ t.regs.bitcnt = s.regs.bitcnt) ∧
  (∀ (c : Regs) (chunks : List (List Byte)), chunks.flatten.length ≤ 2 ^ 61 - 1 →
    (c.newSession.updates chunks).bitcnt.toNat = 8 * (chunks.map List.length).sum)

/-- An empty `UPDATE` changes no state while active and is still rejected while finished (R95). -/
def Obligations.EmptyUpdate : Prop :=
  ∀ s : State,
    (s.regs.fin = false → exec (.update []) s = .next (s.respond .ok)) ∧
    (s.regs.fin = true → exec (.update []) s = .next (s.respond (.error .invalidState)))

/-- What `UPDATE` leaves unchanged (section 2): the output registers and the phase; every register where it is rejected;
and, where it runs, every buffer byte but those of parts A and C, and `H` where no block fills. The clause on buffer bytes
is the model's choice, log entry 10: whole blocks bypass the buffer, where the spec also lets them pass through it. -/
def Obligations.UpdateFrame : Prop :=
  ∀ (s t : State) (chunk : List Byte), exec (.update chunk) s = .next t →
    t.frames = s.frames ∧ t.resetReq = s.resetReq ∧
    t.regs.fin = s.regs.fin ∧ t.regs.digest = s.regs.digest ∧ t.regs.hex = s.regs.hex ∧
    (s.regs.fin = true → t.regs = s.regs) ∧
    (s.regs.fin = false → s.regs.fill.val + chunk.length < 64 → t.regs.h = s.regs.h) ∧
    (s.regs.fin = false → t.regs.fill.val = (s.regs.fill.val + chunk.length) % 64) ∧
    (s.regs.fin = false → ∀ j : Fin 64,
      ¬ (s.regs.fill.val ≤ j.val ∧ j.val < s.regs.fill.val + s.regs.topUp chunk.length) →
      ¬ (j.val < s.regs.remainder chunk.length) →
      t.regs.buf[j] = s.regs.buf[j])

/-- Beyond the counter's capacity an `UPDATE` is what the open parameter `BITCNT_OVERFLOW` says (`92_eei_decisions.md`
D10): no meaning under `refuse`; under `wrap` the counter is reduced modulo 2^64 and everything else proceeds. That the
model leaves the parameter uninterpreted is its own choice, log entry 1; that a `DIGEST_HEX` goes the way of its `UPDATE`
is the model's reading, log entry 15, for D10 speaks of `UPDATE` alone. -/
def Obligations.CapacityIsAParameter : Prop :=
  (∀ (s : State) (chunk : List Byte),
    s.regs.fin = false → 2 ^ 64 ≤ s.regs.bitcnt.toNat + 8 * chunk.length →
    match Config.bitcntOverflow with
    | .refuse => exec (.update chunk) s = .refused .counterCapacity
    | .wrap => ∃ t : State, exec (.update chunk) s = .next t ∧
      t.regs.Agrees ((s.regs.absorbAll chunk).withBitcnt (s.regs.bitcnt + BitVec.ofNat 64 (8 * chunk.length))) ∧
      t.regs.bitcnt.toNat = (s.regs.bitcnt.toNat + 8 * chunk.length) % 2 ^ 64 ∧
      t.frames = s.frames ∧ t.resetReq = s.resetReq ∧ t.responses = s.responses ++ [Response.ok]) ∧
  (∀ (s : State) (chunk : List Byte), 2 ^ 61 ≤ chunk.length →
    match Config.bitcntOverflow with
    | .refuse => exec (.digestHex chunk) s = .refused .counterCapacity
    | .wrap => ∃ t : State, exec (.digestHex chunk) s = .next t ∧ t.regs.Digested chunk ∧
      t.frames = s.frames ∧ t.resetReq = s.resetReq ∧
      t.responses = s.responses ++ [Response.okHex (hexRender (sha1 chunk))])

/-- Chunking invariance: every partition of a stream, in stream order, gives the same digest and the same string (R96);
two chunks are as good as their concatenation. -/
def Obligations.ChunkingInvariance : Prop :=
  (∀ (c : Regs) (parts others : List (List Byte)), parts.flatten = others.flatten →
    (c.newSession.updates parts).finish.digest = (c.newSession.updates others).finish.digest ∧
    (c.newSession.updates parts).finish.hex = (c.newSession.updates others).finish.hex) ∧
  ∀ (c : Regs) (first second : List Byte),
    ((c.newSession.update first).update second).finish.digest = (c.newSession.update (first ++ second)).finish.digest

/-- Every partition of a stream leaves the same meaningful state, from any session (`41_streaming.md` section 3, marked
there as derived). -/
def Obligations.PartitionLeavesSameState : Prop :=
  ∀ (c : Regs) (parts others : List (List Byte)), parts.flatten = others.flatten →
    (c.updates parts).Agrees (c.updates others)

/-- The state after a stream, in closed form (`41_streaming.md` section 3, marked there as derived). -/
def Obligations.StreamClosedForm : Prop :=
  ∀ (c : Regs) (chunks : List (List Byte)),
    let S := chunks.flatten
    let u := c.newSession.updates chunks
    S.length ≤ 2 ^ 61 - 1 →
    u.h = hashBlocks (S.length / 64) iv S ∧ u.fill.val = S.length % 64 ∧
    (∀ i : Fin 64, i.val < S.length % 64 → S[64 * (S.length / 64) + i.val]? = some u.buf[i]) ∧
    u.bitcnt.toNat = 8 * S.length ∧ u.fin = false ∧ u.blockCount = S.length / 64

/-! ## `COMPRESS` (`40_compression.md`) and the primitives -/

/-- Rotation moves bit `i` to bit `(i + n) mod 32`, and is the shift formula of R8. -/
def Obligations.RotationMovesBits : Prop :=
  ∀ (n : Nat) (x : Word), 0 < n → n < 32 →
    (rotl n x).toNat = ((x.toNat <<< n) ||| (x.toNat >>> (32 - n))) % 2 ^ 32 ∧
    ∀ i : Nat, i < 32 → (rotl n x).getLsbD ((i + n) % 32) = x.getLsbD i

/-- The byte-order primitives: `be` as a sum of weighted bytes, and its two inverses (R12). -/
def Obligations.ByteOrderPrimitives : Prop :=
  (∀ s : List Byte, be s = ∑ i : Fin s.length, s[i].toNat * 256 ^ (s.length - 1 - i.val)) ∧
  (∀ v : Word, be (be32Bytes v).toList = v.toNat ∧
    ∀ i : Fin 4, (be32Bytes v)[i] = v.extractLsb' (8 * (3 - i.val)) 8) ∧
  (∀ v : DWord, be (be64Bytes v).toList = v.toNat ∧
    ∀ i : Fin 8, (be64Bytes v)[i] = v.extractLsb' (8 * (7 - i.val)) 8)

/-- `PARSE` reads 16 big-endian words, the earliest byte most significant (R42, R71). -/
def Obligations.ParseIsBigEndian : Prop :=
  ∀ (block : Block) (i : Fin 16),
    (parse block)[i].toNat =
      block[4 * i.val].toNat * 2 ^ 24 + block[4 * i.val + 1].toNat * 2 ^ 16 +
        block[4 * i.val + 2].toNat * 2 ^ 8 + block[4 * i.val + 3].toNat

/-- The schedule (R72): the 16 parsed words, then the recurrence with its one-bit rotation; and nothing of what stood in
the store before (R82). -/
def Obligations.ScheduleRecurrence : Prop :=
  ∀ (start : Vector Word 64) (w : Vector Word 16),
    (∀ t : Fin 16, (schedFrom start w)[t.val] = w[t]) ∧
    (∀ (t : Nat) (h16 : 16 ≤ t) (h80 : t < 80), (schedFrom start w)[t] =
      rotl 1 ((schedFrom start w)[t - 3] ^^^ (schedFrom start w)[t - 8] ^^^ (schedFrom start w)[t - 14] ^^^
        (schedFrom start w)[t - 16])) ∧
    schedFrom start w = sched w

/-- One round (R74): `temp` is the five-term sum with the function and constant the range of `t` selects, and the
variables shift, all from their old values; and the 80 rounds run in ascending order, each exactly once. -/
def Obligations.RoundStepRule : Prop :=
  (∀ (W : Schedule) (r : Work), ∃ f : Nat → Work,
    f 0 = r ∧ (∀ t : Fin 80, f (t.val + 1) = roundStep t W[t] (f t.val)) ∧ f 80 = rounds W r) ∧
  ∀ (t : Fin 80) (w a b c d e f k : Word),
    ((t.val < 20 ∧ f = (b &&& c) ||| (~~~b &&& d) ∧ k = 0x5A827999) ∨
     (20 ≤ t.val ∧ t.val < 40 ∧ f = b ^^^ c ^^^ d ∧ k = 0x6ED9EBA1) ∨
     (40 ≤ t.val ∧ t.val < 60 ∧ f = (b &&& c) ||| (b &&& d) ||| (c &&& d) ∧ k = 0x8F1BBCDC) ∨
     (60 ≤ t.val ∧ f = b ^^^ c ^^^ d ∧ k = 0xCA62C1D6)) →
    roundStep t w ⟨a, b, c, d, e⟩ = ⟨rotl 5 a + f + e + w + k, a, rotl 30 b, c, d⟩

/-- The four round functions bit by bit, and their constants (R75 to R78): a choice, a parity, a majority, and the
parity again under another constant. -/
def Obligations.RoundFunctionsBitwise : Prop :=
  (∀ b c d : Word,
    (∀ i : Nat, (roundF .kind0 b c d).getLsbD i = if b.getLsbD i then c.getLsbD i else d.getLsbD i) ∧
    roundF .kind0 b c d = (b &&& c) ||| (~~~b &&& d) ∧ roundF .kind1 b c d = b ^^^ c ^^^ d ∧
    roundF .kind2 b c d = (b &&& c) ||| (b &&& d) ||| (c &&& d) ∧ roundF .kind3 b c d = b ^^^ c ^^^ d ∧
    (∀ i : Nat, (roundF .kind1 b c d).getLsbD i = (b.getLsbD i ^^ (c.getLsbD i ^^ d.getLsbD i))) ∧
    (∀ i : Nat, (roundF .kind2 b c d).getLsbD i =
      decide (2 ≤ (b.getLsbD i).toNat + (c.getLsbD i).toNat + (d.getLsbD i).toNat)) ∧
    roundF .kind3 b c d = roundF .kind1 b c d) ∧
  (∀ t : Fin 80,
    (t.val < 20 → kindOf t = .kind0) ∧ (20 ≤ t.val → t.val < 40 → kindOf t = .kind1) ∧
    (40 ≤ t.val → t.val < 60 → kindOf t = .kind2) ∧ (60 ≤ t.val → kindOf t = .kind3)) ∧
  roundK .kind0 = 0x5A827999 ∧ roundK .kind1 = 0x6ED9EBA1 ∧ roundK .kind2 = 0x8F1BBCDC ∧
  roundK .kind3 = 0xCA62C1D6

/-- In the choice of kind 0 the two terms never meet, so the inclusive or is an exclusive or and a sum
(`40_compression.md` section 5, marked there as derived). -/
def Obligations.ChoiceTermsAreDisjoint : Prop :=
  ∀ b c d : Word,
    (b &&& c) &&& (~~~b &&& d) = 0 ∧ roundF .kind0 b c d = (b &&& c) ^^^ (~~~b &&& d) ∧
    roundF .kind0 b c d = (b &&& c) + (~~~b &&& d)

/-- `COMPRESS` adds the final working variables back into the state they started from, word by word (R73, R79), and
writes no register but `H` (section 1). -/
def Obligations.CompressAddsBack : Prop :=
  ∀ (c : Regs) (block : Block),
    let r := rounds (sched (parse block)) ⟨c.h[0], c.h[1], c.h[2], c.h[3], c.h[4]⟩
    (c.compress block).h = #v[c.h[0] + r.a, c.h[1] + r.b, c.h[2] + r.c, c.h[3] + r.d, c.h[4] + r.e] ∧
    (c.compress block).buf = c.buf ∧ (c.compress block).fill = c.fill ∧ (c.compress block).bitcnt = c.bitcnt ∧
    (c.compress block).fin = c.fin ∧ (c.compress block).digest = c.digest ∧ (c.compress block).hex = c.hex

/-- The 16-word circular store gives the same schedule word in every round and the same state words as the 80-word
schedule (`40_compression.md` section 9, marked there as derived). -/
def Obligations.CircularScheduleIsEquivalent : Prop :=
  ∀ (h : StateWords) (block : Block),
    (∀ t : Fin 80,
      (((List.finRange 80).take (t.val + 1)).foldl circularStep (parse block))[t.val % 16]'(Nat.mod_lt _ (by decide)) =
        (sched (parse block))[t]) ∧
    compressCircular h block = compressFn h block

/-- A round is a bijection on the working variables, with the inverse R85 gives. -/
def Obligations.RoundIsInvertible : Prop :=
  ∀ (t : Fin 80) (w : Word) (r : Work),
    roundInverse t w (roundStep t w r) = r ∧ roundStep t w (roundInverse t w r) = r

/-! ## `FINISH`, `DIGEST_HEX` and the output (`42_finalization.md`) -/

/-- `PAD` step by step (R106 to R110): which bytes each of the one or two last blocks holds, with the marker, the zeros
and the length captured before them, and the compressions made of them. -/
def Obligations.PadLayout : Prop :=
  ∀ c : Regs,
    (c.fill.val < 56 → ∃ B : Block,
      (∀ j : Fin 64,
        (j.val < c.fill.val → B[j] = c.buf[j]) ∧ (j.val = c.fill.val → B[j] = 0x80) ∧
        (c.fill.val < j.val → j.val < 56 → B[j] = 0x00) ∧
        (56 ≤ j.val → B[j] = c.bitcnt.extractLsb' (8 * (63 - j.val)) 8)) ∧
      c.pad.h = compressFn c.h B ∧ c.pad.buf = B) ∧
    (56 ≤ c.fill.val → ∃ A B : Block,
      (∀ j : Fin 64,
        (j.val < c.fill.val → A[j] = c.buf[j]) ∧ (j.val = c.fill.val → A[j] = 0x80) ∧
        (c.fill.val < j.val → A[j] = 0x00)) ∧
      (∀ j : Fin 64,
        (j.val < 56 → B[j] = 0x00) ∧ (56 ≤ j.val → B[j] = c.bitcnt.extractLsb' (8 * (63 - j.val)) 8)) ∧
      c.pad.h = compressFn (compressFn c.h A) B ∧ c.pad.buf = B) ∧
    c.pad.fill = 0 ∧ c.pad.bitcnt = c.bitcnt

/-- While active `FINISH` completes: the buffered bytes, 0x80, zeros and the length are compressed in one block or two,
`DIGEST` and `HEX` are made from the final state and answered, and the session is finished; while finished it is
rejected (R113). -/
def Obligations.FinishProducesDigest : Prop :=
  (∀ s : State, s.regs.fin = true → exec .finish s = .next (s.respond (.error .invalidState))) ∧
  ∀ s : State, s.regs.fin = false →
    ∃ t : State, exec .finish s = .next t ∧ t.regs.fin = true ∧ t.regs.fill = 0 ∧
      t.regs.bitcnt = s.regs.bitcnt ∧
      t.regs.h = hashBlocks (if s.regs.fill.val < 56 then 1 else 2) s.regs.h
        (s.regs.buf.toList.take s.regs.fill.val ++
          0x80 :: (List.replicate ((119 - s.regs.fill.val) % 64) 0x00 ++ (be64Bytes s.regs.bitcnt).toList)) ∧
      t.regs.digest = some (serialize t.regs.h) ∧ t.regs.hex = some (hexRender (serialize t.regs.h)) ∧
      t.responses = s.responses ++ [Response.okDigest (serialize t.regs.h) (hexRender (serialize t.regs.h))]

/-- What `FINISH` leaves unchanged (sections 1 and 4): the counter; every register where it is rejected; the bytes
before the marker where one block is enough. -/
def Obligations.FinishFrame : Prop :=
  ∀ s t : State, exec .finish s = .next t →
    t.frames = s.frames ∧ t.resetReq = s.resetReq ∧ t.regs.bitcnt = s.regs.bitcnt ∧
    (s.regs.fin = true → t.regs = s.regs) ∧
    (s.regs.fin = false → s.regs.fill.val < 56 →
      ∀ j : Fin 64, j.val < s.regs.fill.val → t.regs.buf[j] = s.regs.buf[j])

/-- `SERIALIZE`: the five words as 20 bytes, `H[0]` first, most significant byte first, the inverse order of `PARSE`
(R44, R111). -/
def Obligations.SerializeIsBigEndian : Prop :=
  (∀ (h : StateWords) (i : Fin 5),
    (serialize h)[4 * i.val] = h[i].extractLsb' 24 8 ∧ (serialize h)[4 * i.val + 1] = h[i].extractLsb' 16 8 ∧
    (serialize h)[4 * i.val + 2] = h[i].extractLsb' 8 8 ∧ (serialize h)[4 * i.val + 3] = h[i].extractLsb' 0 8) ∧
  ∀ (block : Block) (j : Fin 20),
    (serialize #v[(parse block)[0], (parse block)[1], (parse block)[2], (parse block)[3], (parse block)[4]])[j] =
      block[j.val]

/-- `HEXRENDER`: two lowercase hexadecimal characters per byte, high nibble first, and nothing else (R45, R112). -/
def Obligations.HexRenderIsLowercase : Prop :=
  ∀ (d : DigestBytes) (j : Fin 20),
    (hexRender d)[2 * j.val].toNat =
      (if d[j].toNat / 16 < 10 then 0x30 + d[j].toNat / 16 else 0x61 + (d[j].toNat / 16 - 10)) ∧
    (hexRender d)[2 * j.val + 1].toNat =
      (if d[j].toNat % 16 < 10 then 0x30 + d[j].toNat % 16 else 0x61 + (d[j].toNat % 16 - 10))

/-- `DIGEST_HEX` completes in every phase within the counter's capacity: it leaves the registers `NEW`, `UPDATE`,
`FINISH` leave, and answers only the string that their `FINISH` answers (R63, R116). -/
def Obligations.DigestHexIsComposition : Prop :=
  ∀ (s : State) (chunk : List Byte), chunk.length < 2 ^ 61 →
    ∃ (t u v w : State) (d : DigestBytes) (x : HexChars),
      exec .new s = .next t ∧ exec (.update chunk) t = .next u ∧ exec .finish u = .next v ∧
      exec (.digestHex chunk) s = .next w ∧ w.regs = v.regs ∧ w.regs.fin = true ∧
      v.responses = s.responses ++ [Response.ok, .ok, .okDigest d x] ∧
      w.responses = s.responses ++ [Response.okHex x] ∧
      w.regs.hex = some x ∧ w.regs.digest = some d

/-- `DIGEST_HEX` answers the digest of its chunk: the closed form of R114, rendered. -/
def Obligations.DigestHexAnswersSha1 : Prop :=
  ∀ (s : State) (chunk : List Byte), chunk.length < 2 ^ 61 →
    ∃ t : State, exec (.digestHex chunk) s = .next t ∧
      t.responses = s.responses ++ [Response.okHex (hexRender (sha1 chunk))] ∧
      t.regs.digest = some (sha1 chunk) ∧ t.regs.hex = some (hexRender (sha1 chunk)) ∧ t.regs.fill = 0 ∧
      t.regs.bitcnt.toNat = 8 * chunk.length ∧ t.frames = s.frames ∧ t.resetReq = s.resetReq

/-- The padded message is whole blocks, as many as R114 says, begins with the stream, and adds at most 72 bytes. -/
def Obligations.PaddingMakesWholeBlocks : Prop :=
  ∀ S : List Byte,
    (padded S).length = 64 * ((S.length + 8) / 64 + 1) ∧ S.length + 9 ≤ (padded S).length ∧
    (padded S).length ≤ S.length + 72 ∧ S <+: padded S

/-- A whole session from any state: `NEW`, an `UPDATE` per chunk, `FINISH`, answers `OK` to every command but the last
and to the last the digest of the chunks' concatenation (`70_reset_and_hazards.md` section 3, marked there as derived). That
all the frames stand in the stream before the first is answered is the model's choice, log entry 17. -/
def Obligations.SessionAnswersSha1 : Prop :=
  ∀ (s : State) (chunks : List (List Byte)) (rest : List Byte),
    s.resetReq = false → chunks.flatten.length < 2 ^ 61 →
    s.frames = encode .new ++ chunks.flatMap (fun chunk => encode (.update chunk)) ++ encode .finish ++ rest →
    ∃ t : State, Host.Core.run Sys2Proof.core (chunks.length + 2) s = .next t ∧ t.frames = rest ∧
      t.responses = s.responses ++ List.replicate (chunks.length + 1) Response.ok ++
        [Response.okDigest (sha1 chunks.flatten) (hexRender (sha1 chunks.flatten))]

/-! ## Errors, responses and the host (`60_exceptions.md`, `30_encoding.md` section 6) -/

/-- Use after finalization: `UPDATE` while finished is rejected with `InvalidState`, whatever its chunk (R126). -/
def Obligations.UpdateAfterFinishIsRejected : Prop :=
  ∀ (s : State) (chunk : List Byte), s.regs.fin = true →
    exec (.update chunk) s = .next (s.respond (.error .invalidState))

/-- A second `FINISH` is rejected with `InvalidState`, and the first of a session cannot be (R127). -/
def Obligations.SecondFinishIsRejected : Prop :=
  ∀ s : State,
    (s.regs.fin = true → exec .finish s = .next (s.respond (.error .invalidState))) ∧
    (s.regs.fin = false → ∃ (t : State) (d : DigestBytes) (x : HexChars), exec .finish s = .next t ∧
      t.responses = s.responses ++ [Response.okDigest d x])

/-- A rejected command, `UPDATE` or `FINISH` while finished or a reserved opcode, writes no state of the core, its whole frame is consumed and no more, so that the next step finds
the next command, and its response is the error status alone (R131). -/
def Obligations.RejectionChangesNothing : Prop :=
  ∀ (s t : State) (e : CmdError), s.resetReq = false → step s = .next t →
    t.responses = s.responses ++ [Response.error e] →
    t.regs = s.regs ∧ t.resetReq = false ∧ (responseBytes (.error e)).length = 1 ∧
    ((∃ chunk, s.frames = encode (.update chunk) ++ t.frames ∧ e = .invalidState ∧ s.regs.fin = true) ∨
     (s.frames = encode .finish ++ t.frames ∧ e = .invalidState ∧ s.regs.fin = true) ∨
     (∃ op, s.frames = op :: t.frames ∧ opcodeOf op = none ∧ e = .illegalCommand))

/-- Every command produces exactly one response, of its own kind, with the byte layout of the table (R61). -/
def Obligations.OneResponsePerCommand : Prop :=
  (∀ (i : Instr) (s t : State), exec i s = .next t →
    ∃ r, t.responses = s.responses ++ [r] ∧
      match i with
      | .new => r = .ok
      | .update _ => r = if s.regs.fin then .error .invalidState else .ok
      | .finish =>
        if s.regs.fin then r = .error .invalidState
        else ∃ d x, r = .okDigest d x ∧ t.regs.digest = some d ∧ t.regs.hex = some x
      | .digestHex _ => ∃ x, r = .okHex x ∧ t.regs.hex = some x) ∧
  (∀ (d : DigestBytes) (x : HexChars),
    responseBytes .ok = [0x00] ∧
    responseBytes (.okDigest d x) = [0x00] ++ d.toList ++ x.toList ∧ (responseBytes (.okDigest d x)).length = 61 ∧
    responseBytes (.okHex x) = [0x00] ++ x.toList ∧ (responseBytes (.okHex x)).length = 41 ∧
    responseBytes (.error .invalidState) = [0x01] ∧ responseBytes (.error .illegalCommand) = [0x02])

/-- A command leaves the rest of the command stream, the reset request and the responses already given as they were
(`20_memory.md` section 4). -/
def Obligations.CommandFrame : Prop :=
  ∀ (i : Instr) (s t : State), exec i s = .next t →
    t.frames = s.frames ∧ t.resetReq = s.resetReq ∧ s.responses <+: t.responses

/-- The host reads the digest and the string of a finished session, and a read while there is none is refused
(`10_state.md` section 6, `92_eei_decisions.md` D13). -/
def Obligations.DigestIsReadableWhileFinished : Prop :=
  ∀ s : State, s.regs.Inv →
    (s.regs.fin = true →
      s.readDigest = .ok (serialize s.regs.h) ∧ s.readHex = .ok (hexRender (serialize s.regs.h))) ∧
    (s.regs.fin = false → s.readDigest = .error .digestAbsent ∧ s.readHex = .error .digestAbsent)

/-- Once produced the digest is immutable: no step but `NEW`, `DIGEST_HEX` and reset changes it (section 6 of
`42_finalization.md`). -/
def Obligations.DigestIsImmutable : Prop :=
  ∀ s t : State, s.regs.fin = true → s.resetReq = false →
    (∀ rest, decode s.frames ≠ .frame .new rest) →
    (∀ chunk rest, decode s.frames ≠ .frame (.digestHex chunk) rest) →
    step s = .next t →
    t.regs = s.regs

/-- The core never stops while the host keeps its two duties, whole frames and the counter's capacity
(`60_exceptions.md` section 1, `70_reset_and_hazards.md` section 4). -/
def Obligations.StepAnswersWhileHostKeepsDuties : Prop :=
  ∀ s : State, s.WholeFrame → s.WithinCapacity → ∃ t : State, step s = .next t

/-- Instances share nothing: a step of one leaves every other as it was, is that instance's own step, and each starts in
the reset state (`60_exceptions.md` section 7). -/
def Obligations.InstancesAreIndependent : Prop :=
  (∀ n k : Nat, k < n → (platformReset n)[k]? = some State.reset) ∧
  ∀ (p q : Platform) (k : Nat), platformStep k p = some (.next q) →
    q.length = p.length ∧ (∀ j : Nat, j ≠ k → q[j]? = p[j]?) ∧
    ∃ s t : State, p[k]? = some s ∧ step s = .next t ∧ q[k]? = some t

/-! ## Invariants -/

/-- The invariant between commands holds at reset (`10_state.md` section 9). -/
def Obligations.InvAtReset : Prop := State.reset.Inv

/-- Every step keeps the invariant between commands, from every state that has it (`10_state.md` section 9). -/
def Obligations.StepKeepsInv : Prop :=
  ∀ s t : State, s.Inv → step s = .next t → t.Inv

/-- At reset the registers are those of a session over the empty stream (`41_streaming.md` section 3). -/
def Obligations.SessionAtReset : Prop := State.reset.regs.Holds []

/-- Every step keeps the registers those of a session over a stream, in the closed form of R97 while it is open and of
R114 once it is finished, and the stream is the one the commands say: an accepted `UPDATE` appends its chunk, `FINISH`
digests it, `NEW` and reset start the empty one, `DIGEST_HEX` has its own chunk. -/
def Obligations.StepKeepsSession : Prop :=
  ∀ (s t : State) (S : List Byte), s.regs.SessionOf S → step s = .next t → t.regs.SessionOf (s.nextStream S)

/-- In every state the host can bring about, the registers are those of a session over some stream, and there is a
digest exactly while the session is finished (`10_state.md` sections 6 and 9). -/
def Obligations.ReachableStatesHoldASession : Prop :=
  ∀ s : State, Reachable s →
    (∃ S : List Byte, s.regs.SessionOf S) ∧ (s.regs.fin = false ↔ s.regs.digest = none)

/-- Stale buffer bytes are unobservable: two states that differ in nothing else step alike, stop alike, answer alike,
and differ in nothing else afterwards (`10_state.md` sections 6 and 8, `42_finalization.md` section 6). -/
def Obligations.StaleBytesAreUnobservable : Prop :=
  ∀ s t : State, s.Agrees t →
    (∀ s', step s = .next s' → ∃ t' : State, step t = .next t' ∧ s'.Agrees t') ∧
    (∀ r, step s = .refused r → step t = .refused r)
end

