-- ==== Sys2Proof/Laws/Bits.lean ====
section
/-! SUPPORT. What the primitives of `Machine/Bits.lean` and `Machine/Operands.lean` do. -/

namespace Sys2Proof.Machine

@[simp] theorem be_nil : be [] = 0 := rfl

theorem be_foldl (s : List Byte) (acc : Nat) :
    s.foldl (fun acc b => acc * 256 + b.toNat) acc = acc * 256 ^ s.length + be s := by
  induction s generalizing acc with
  | nil => simp
  | cons b s ih =>
    simp only [be, List.foldl_cons, List.length_cons, ih (acc * 256 + b.toNat), ih (0 * 256 + b.toNat)]
    ring

/-- The first byte is the most significant (R12). -/
theorem be_cons (b : Byte) (s : List Byte) : be (b :: s) = b.toNat * 256 ^ s.length + be s := by
  have h := be_foldl s (0 * 256 + b.toNat)
  simpa [be] using h

theorem be_append (s t : List Byte) : be (s ++ t) = be s * 256 ^ t.length + be t := by
  rw [be, List.foldl_append, be_foldl, ← be]

theorem be_lt (s : List Byte) : be s < 256 ^ s.length := by
  induction s with
  | nil => simp
  | cons b s ih =>
    have hb := b.isLt
    have : b.toNat * 256 ^ s.length ≤ 255 * 256 ^ s.length := Nat.mul_le_mul_right _ (by omega)
    rw [be_cons, List.length_cons, pow_succ]
    omega

/-- `MemWrite` writes its bytes at its index and no other byte (R13). -/
theorem memWrite_getElem {n m : Nat} (S : Vector Byte n) (i : Nat) (bytes : Vector Byte m) (j : Nat) (hj : j < n) :
    (memWrite S i bytes)[j] = if h : i ≤ j ∧ j < i + m then bytes[j - i] else S[j] := by
  simp [memWrite]

/-- A zero fill clears its range and no other byte. -/
theorem zeroFill_getElem {n : Nat} (S : Vector Byte n) (lo hi j : Nat) (hj : j < n) :
    (zeroFill S lo hi)[j] = if lo ≤ j ∧ j < hi then 0x00 else S[j] := by
  simp [zeroFill]

/-- Byte `i` of the block is byte `i` of the 64 or more bytes it is taken from; no default is read. -/
theorem blockOf_getElem (bytes : List Byte) (i : Nat) (hi : i < 64) (h : 64 ≤ bytes.length) :
    (blockOf bytes)[i] = bytes[i] := by
  simp [blockOf, List.getD_eq_getElem?_getD, List.getElem?_eq_getElem (show i < bytes.length by omega)]

/-- A block reads only the first 64 of the bytes it is taken from. -/
theorem blockOf_append (bytes more : List Byte) (h : 64 ≤ bytes.length) :
    blockOf (bytes ++ more) = blockOf bytes := by
  apply Vector.ext
  intro i hi
  rw [blockOf_getElem _ _ hi (by simp; omega), blockOf_getElem _ _ hi h, List.getElem_append_left]

@[simp] theorem lenBytes_length (chunk : List Byte) : (lenBytes chunk).length = 8 := by
  simp [lenBytes]

/-- `LEN` is read from the first 8 bytes only. -/
theorem lenField_append (len more : List Byte) (h : len.length = 8) : lenField (len ++ more) = be len := by
  simp [lenField, h]

end Sys2Proof.Machine
end

