-- ==== Sys2Proof/Laws/State.lean ====
section
/-! SUPPORT. One lemma per field per update of the registers and of the state, so that no proof unfolds a record
update. -/

namespace Sys2Proof.Machine

variable (c : Regs) (s : State)

@[simp] theorem Regs.withH_h (v : StateWords) : (c.withH v).h = v := rfl
@[simp] theorem Regs.withH_buf (v : StateWords) : (c.withH v).buf = c.buf := rfl
@[simp] theorem Regs.withH_fill (v : StateWords) : (c.withH v).fill = c.fill := rfl
@[simp] theorem Regs.withH_bitcnt (v : StateWords) : (c.withH v).bitcnt = c.bitcnt := rfl
@[simp] theorem Regs.withH_fin (v : StateWords) : (c.withH v).fin = c.fin := rfl
@[simp] theorem Regs.withH_digest (v : StateWords) : (c.withH v).digest = c.digest := rfl
@[simp] theorem Regs.withH_hex (v : StateWords) : (c.withH v).hex = c.hex := rfl

@[simp] theorem Regs.withBuf_h (v : Block) : (c.withBuf v).h = c.h := rfl
@[simp] theorem Regs.withBuf_buf (v : Block) : (c.withBuf v).buf = v := rfl
@[simp] theorem Regs.withBuf_fill (v : Block) : (c.withBuf v).fill = c.fill := rfl
@[simp] theorem Regs.withBuf_bitcnt (v : Block) : (c.withBuf v).bitcnt = c.bitcnt := rfl
@[simp] theorem Regs.withBuf_fin (v : Block) : (c.withBuf v).fin = c.fin := rfl
@[simp] theorem Regs.withBuf_digest (v : Block) : (c.withBuf v).digest = c.digest := rfl
@[simp] theorem Regs.withBuf_hex (v : Block) : (c.withBuf v).hex = c.hex := rfl

@[simp] theorem Regs.withFill_h (v : Fin 64) : (c.withFill v).h = c.h := rfl
@[simp] theorem Regs.withFill_buf (v : Fin 64) : (c.withFill v).buf = c.buf := rfl
@[simp] theorem Regs.withFill_fill (v : Fin 64) : (c.withFill v).fill = v := rfl
@[simp] theorem Regs.withFill_bitcnt (v : Fin 64) : (c.withFill v).bitcnt = c.bitcnt := rfl
@[simp] theorem Regs.withFill_fin (v : Fin 64) : (c.withFill v).fin = c.fin := rfl
@[simp] theorem Regs.withFill_digest (v : Fin 64) : (c.withFill v).digest = c.digest := rfl
@[simp] theorem Regs.withFill_hex (v : Fin 64) : (c.withFill v).hex = c.hex := rfl

@[simp] theorem Regs.withBitcnt_h (v : DWord) : (c.withBitcnt v).h = c.h := rfl
@[simp] theorem Regs.withBitcnt_buf (v : DWord) : (c.withBitcnt v).buf = c.buf := rfl
@[simp] theorem Regs.withBitcnt_fill (v : DWord) : (c.withBitcnt v).fill = c.fill := rfl
@[simp] theorem Regs.withBitcnt_bitcnt (v : DWord) : (c.withBitcnt v).bitcnt = v := rfl
@[simp] theorem Regs.withBitcnt_fin (v : DWord) : (c.withBitcnt v).fin = c.fin := rfl
@[simp] theorem Regs.withBitcnt_digest (v : DWord) : (c.withBitcnt v).digest = c.digest := rfl
@[simp] theorem Regs.withBitcnt_hex (v : DWord) : (c.withBitcnt v).hex = c.hex := rfl

@[simp] theorem Regs.withFin_h (v : Bool) : (c.withFin v).h = c.h := rfl
@[simp] theorem Regs.withFin_buf (v : Bool) : (c.withFin v).buf = c.buf := rfl
@[simp] theorem Regs.withFin_fill (v : Bool) : (c.withFin v).fill = c.fill := rfl
@[simp] theorem Regs.withFin_bitcnt (v : Bool) : (c.withFin v).bitcnt = c.bitcnt := rfl
@[simp] theorem Regs.withFin_fin (v : Bool) : (c.withFin v).fin = v := rfl
@[simp] theorem Regs.withFin_digest (v : Bool) : (c.withFin v).digest = c.digest := rfl
@[simp] theorem Regs.withFin_hex (v : Bool) : (c.withFin v).hex = c.hex := rfl

@[simp] theorem Regs.withOutput_h (v : Option (DigestBytes × HexChars)) :
    (c.withOutput v).h = c.h := rfl
@[simp] theorem Regs.withOutput_buf (v : Option (DigestBytes × HexChars)) :
    (c.withOutput v).buf = c.buf := rfl
@[simp] theorem Regs.withOutput_fill (v : Option (DigestBytes × HexChars)) :
    (c.withOutput v).fill = c.fill := rfl
@[simp] theorem Regs.withOutput_bitcnt (v : Option (DigestBytes × HexChars)) :
    (c.withOutput v).bitcnt = c.bitcnt := rfl
@[simp] theorem Regs.withOutput_fin (v : Option (DigestBytes × HexChars)) :
    (c.withOutput v).fin = c.fin := rfl
@[simp] theorem Regs.withOutput_digest (v : Option (DigestBytes × HexChars)) :
    (c.withOutput v).digest = v.map Prod.fst := rfl
@[simp] theorem Regs.withOutput_hex (v : Option (DigestBytes × HexChars)) :
    (c.withOutput v).hex = v.map Prod.snd := rfl

@[simp] theorem State.withRegs_regs (v : Regs) : (s.withRegs v).regs = v := rfl
@[simp] theorem State.withRegs_frames (v : Regs) : (s.withRegs v).frames = s.frames := rfl
@[simp] theorem State.withRegs_responses (v : Regs) : (s.withRegs v).responses = s.responses := rfl
@[simp] theorem State.withRegs_resetReq (v : Regs) : (s.withRegs v).resetReq = s.resetReq := rfl

@[simp] theorem State.withFrames_regs (v : List Byte) : (s.withFrames v).regs = s.regs := rfl
@[simp] theorem State.withFrames_frames (v : List Byte) : (s.withFrames v).frames = v := rfl
@[simp] theorem State.withFrames_responses (v : List Byte) : (s.withFrames v).responses = s.responses := rfl
@[simp] theorem State.withFrames_resetReq (v : List Byte) : (s.withFrames v).resetReq = s.resetReq := rfl

@[simp] theorem State.withResetReq_regs (v : Bool) : (s.withResetReq v).regs = s.regs := rfl
@[simp] theorem State.withResetReq_frames (v : Bool) : (s.withResetReq v).frames = s.frames := rfl
@[simp] theorem State.withResetReq_responses (v : Bool) : (s.withResetReq v).responses = s.responses := rfl
@[simp] theorem State.withResetReq_resetReq (v : Bool) : (s.withResetReq v).resetReq = v := rfl

@[simp] theorem State.respond_regs (r : Response) : (s.respond r).regs = s.regs := rfl
@[simp] theorem State.respond_frames (r : Response) : (s.respond r).frames = s.frames := rfl
@[simp] theorem State.respond_responses (r : Response) : (s.respond r).responses = s.responses ++ [r] := rfl
@[simp] theorem State.respond_resetReq (r : Response) : (s.respond r).resetReq = s.resetReq := rfl

@[simp] theorem State.send_regs (v : List Byte) : (s.send v).regs = s.regs := rfl
@[simp] theorem State.send_frames (v : List Byte) : (s.send v).frames = s.frames ++ v := rfl
@[simp] theorem State.send_responses (v : List Byte) : (s.send v).responses = s.responses := rfl
@[simp] theorem State.send_resetReq (v : List Byte) : (s.send v).resetReq = s.resetReq := rfl

@[simp] theorem State.takeReset_regs : s.takeReset.regs = Regs.reset := rfl
@[simp] theorem State.takeReset_frames : s.takeReset.frames = s.frames := rfl
@[simp] theorem State.takeReset_responses : s.takeReset.responses = s.responses := rfl
@[simp] theorem State.takeReset_resetReq : s.takeReset.resetReq = false := rfl

@[simp] theorem State.requestReset_regs : s.requestReset.regs = s.regs := rfl
@[simp] theorem State.requestReset_frames : s.requestReset.frames = s.frames := rfl
@[simp] theorem State.requestReset_responses : s.requestReset.responses = s.responses := rfl
@[simp] theorem State.requestReset_resetReq : s.requestReset.resetReq = true := rfl

/-- Register states are equal when every register is. -/
theorem Regs.ext_fields {c d : Regs} (hh : c.h = d.h) (hb : c.buf = d.buf) (hf : c.fill = d.fill)
    (hc : c.bitcnt = d.bitcnt) (hn : c.fin = d.fin) (hd : c.digest = d.digest) (hx : c.hex = d.hex) : c = d := by
  cases c; cases d; simp_all

/-- States are equal when every field is. -/
theorem State.ext_fields {s t : State} (hr : s.regs = t.regs) (hf : s.frames = t.frames)
    (hp : s.responses = t.responses) (hq : s.resetReq = t.resetReq) : s = t := by
  cases s; cases t; simp_all

end Sys2Proof.Machine
end

