-- ==== Sys2Proof/Laws/Compression.lean ====
section
/-! SUPPORT. What the micro-operations of the compression core do. -/

namespace Sys2Proof.Machine

/-- `PARSE` at one word (R71). -/
theorem parse_getElem (block : Block) (i : Nat) (hi : i < 16) :
    (parse block)[i] = BitVec.ofNat 32 (memRead block (4 * i) 4) := by
  simp [parse]

/-- One turn of `SCHED` writes its own word and no other (R72). -/
theorem schedStep_getElem (W : Schedule) (i : Fin 64) (t : Nat) (ht : t < 80) :
    (schedStep W i)[t] =
      if t = i.val + 16 then rotl 1 (W[i.val + 13] ^^^ W[i.val + 8] ^^^ W[i.val + 2] ^^^ W[i.val]) else W[t] := by
  simp only [schedStep, Vector.getElem_set]
  split <;> split <;> first | rfl | omega

variable (block : Block) (c : Regs)

/-- `COMPRESS` writes `H` (R70) ... -/
@[simp] theorem Regs.compress_h : (c.compress block).h = compressFn c.h block := rfl
/-! ... and no other register (R70). -/
@[simp] theorem Regs.compress_buf : (c.compress block).buf = c.buf := rfl
@[simp] theorem Regs.compress_fill : (c.compress block).fill = c.fill := rfl
@[simp] theorem Regs.compress_bitcnt : (c.compress block).bitcnt = c.bitcnt := rfl
@[simp] theorem Regs.compress_fin : (c.compress block).fin = c.fin := rfl
@[simp] theorem Regs.compress_digest : (c.compress block).digest = c.digest := rfl
@[simp] theorem Regs.compress_hex : (c.compress block).hex = c.hex := rfl

/-- The circular store changes in rounds 16 to 79 only, and then in one word (R83). -/
theorem circularStep_getElem (w : Vector Word 16) (t : Fin 80) (j : Nat) (hj : j < 16) :
    (circularStep w t)[j] =
      if 16 ≤ t.val ∧ j = t.val % 16 then
        rotl 1 (w[(t.val - 3) % 16] ^^^ w[(t.val - 8) % 16] ^^^ w[(t.val - 14) % 16] ^^^ w[(t.val - 16) % 16])
      else w[j] := by
  by_cases ht : t.val < 16
  · rw [show circularStep w t = w from if_pos ht, if_neg (by omega)]
  · have h : circularStep w t = w.set (t.val % 16) _ (Nat.mod_lt _ (by decide)) := if_neg ht
    simp only [h, Vector.getElem_set, show 16 ≤ t.val by omega, true_and, eq_comm]

end Sys2Proof.Machine
end

