-- ==== Sys2Proof/Laws/Streaming.lean ====
section
/-! SUPPORT. What the operations of the streaming unit do. -/

namespace Sys2Proof.Machine

variable (c : Regs)

/-! `NEW` (R90), one register at a time. -/

@[simp] theorem Regs.newSession_h : c.newSession.h = iv := rfl
@[simp] theorem Regs.newSession_buf : c.newSession.buf = c.buf := rfl
@[simp] theorem Regs.newSession_fill : c.newSession.fill = 0 := rfl
@[simp] theorem Regs.newSession_bitcnt : c.newSession.bitcnt = 0 := rfl
@[simp] theorem Regs.newSession_fin : c.newSession.fin = false := rfl
@[simp] theorem Regs.newSession_digest : c.newSession.digest = none := rfl
@[simp] theorem Regs.newSession_hex : c.newSession.hex = none := rfl

/-! The registers `ABSORB` never writes (R92). -/

@[simp] theorem Regs.absorb_bitcnt (x : Byte) : (c.absorb x).bitcnt = c.bitcnt := by
  unfold Regs.absorb; split <;> rfl
@[simp] theorem Regs.absorb_fin (x : Byte) : (c.absorb x).fin = c.fin := by
  unfold Regs.absorb; split <;> rfl
@[simp] theorem Regs.absorb_digest (x : Byte) : (c.absorb x).digest = c.digest := by
  unfold Regs.absorb; split <;> rfl
@[simp] theorem Regs.absorb_hex (x : Byte) : (c.absorb x).hex = c.hex := by
  unfold Regs.absorb; split <;> rfl

/-- `ABSORB` stores its byte at `BUF[FILL]`, whatever else it does (R92). -/
@[simp] theorem Regs.absorb_buf (x : Byte) : (c.absorb x).buf = c.buf.set c.fill.val x := by
  unfold Regs.absorb; split <;> rfl

/-- The fill count after `ABSORB`: one more, and 64 becomes 0 (R92). -/
theorem Regs.absorb_fill (x : Byte) : (c.absorb x).fill.val = (c.fill.val + 1) % 64 := by
  unfold Regs.absorb
  split
  · simp only [Regs.withFill_fill]; omega
  · have := c.fill.isLt
    simp only [Regs.withFill_fill, Fin.val_zero]
    omega

/-- The digest state after `ABSORB`: it changes where the byte fills the buffer, and then by one compression (R92). -/
theorem Regs.absorb_h (x : Byte) :
    (c.absorb x).h = if c.fill.val = 63 then compressFn c.h (c.buf.set c.fill.val x) else c.h := by
  have := c.fill.isLt
  unfold Regs.absorb
  split
  · rw [if_neg (by omega)]; rfl
  · rw [if_pos (by omega)]; rfl

@[simp] theorem Regs.absorbAll_nil : c.absorbAll [] = c := rfl
@[simp] theorem Regs.absorbAll_cons (x : Byte) (bytes : List Byte) :
    c.absorbAll (x :: bytes) = (c.absorb x).absorbAll bytes := rfl
theorem Regs.absorbAll_append (bytes more : List Byte) :
    c.absorbAll (bytes ++ more) = (c.absorbAll bytes).absorbAll more := by
  simp [Regs.absorbAll]

/-! The registers `ABSORB` of any number of bytes never writes. -/

@[simp] theorem Regs.absorbAll_bitcnt (bytes : List Byte) : (c.absorbAll bytes).bitcnt = c.bitcnt := by
  induction bytes generalizing c with
  | nil => rfl
  | cons x bytes ih => simp [ih]
@[simp] theorem Regs.absorbAll_fin (bytes : List Byte) : (c.absorbAll bytes).fin = c.fin := by
  induction bytes generalizing c with
  | nil => rfl
  | cons x bytes ih => simp [ih]
@[simp] theorem Regs.absorbAll_digest (bytes : List Byte) : (c.absorbAll bytes).digest = c.digest := by
  induction bytes generalizing c with
  | nil => rfl
  | cons x bytes ih => simp [ih]
@[simp] theorem Regs.absorbAll_hex (bytes : List Byte) : (c.absorbAll bytes).hex = c.hex := by
  induction bytes generalizing c with
  | nil => rfl
  | cons x bytes ih => simp [ih]

/-- The fill count after absorbing bytes: it counts them modulo 64. -/
theorem Regs.absorbAll_fill (bytes : List Byte) :
    (c.absorbAll bytes).fill.val = (c.fill.val + bytes.length) % 64 := by
  induction bytes generalizing c with
  | nil => have := c.fill.isLt; simp; omega
  | cons x bytes ih => rw [Regs.absorbAll_cons, ih, Regs.absorb_fill, List.length_cons]; omega

@[simp] theorem hashBlocks_zero (h : StateWords) (bytes : List Byte) : hashBlocks 0 h bytes = h := rfl
theorem hashBlocks_succ (q : Nat) (h : StateWords) (bytes : List Byte) :
    hashBlocks (q + 1) h bytes = hashBlocks q (compressFn h (blockOf bytes)) (bytes.drop 64) := rfl

/-- Blocks one after another: first `p` of them, then `q` from where those end. -/
theorem hashBlocks_add (p q : Nat) (h : StateWords) (bytes : List Byte) :
    hashBlocks (p + q) h bytes = hashBlocks q (hashBlocks p h bytes) (bytes.drop (64 * p)) := by
  induction p generalizing h bytes with
  | zero => simp
  | succ p ih =>
    rw [Nat.succ_add, hashBlocks_succ, ih, hashBlocks_succ, List.drop_drop]
    congr 2
    omega

/-- Bytes after the blocks that are taken do not matter. -/
theorem hashBlocks_append (q : Nat) (h : StateWords) (bytes more : List Byte) (hq : 64 * q ≤ bytes.length) :
    hashBlocks q h (bytes ++ more) = hashBlocks q h bytes := by
  induction q generalizing h bytes with
  | zero => rfl
  | succ q ih =>
    rw [hashBlocks_succ, hashBlocks_succ, blockOf_append _ _ (by omega), List.drop_append_of_le_length (by omega),
      ih _ _ (by rw [List.length_drop]; omega)]

/-- Only the bytes of the blocks that are taken matter. -/
theorem hashBlocks_take (q : Nat) (h : StateWords) (bytes : List Byte) (hq : 64 * q ≤ bytes.length) :
    hashBlocks q h (bytes.take (64 * q)) = hashBlocks q h bytes := by
  have hl : (bytes.take (64 * q)).length = 64 * q := by rw [List.length_take]; omega
  rw [← hashBlocks_append q h (bytes.take (64 * q)) (bytes.drop (64 * q)) (by omega), List.take_append_drop]

/-- Absorbing bytes that do not fill the buffer stores them and compresses nothing. -/
theorem Regs.absorbAll_short (bytes : List Byte) (h : c.fill.val + bytes.length < 64) :
    (c.absorbAll bytes).h = c.h ∧
    ∀ (j : Nat) (hj : j < 64), (c.absorbAll bytes).buf[j] =
      if hb : c.fill.val ≤ j ∧ j < c.fill.val + bytes.length then bytes[j - c.fill.val] else c.buf[j] := by
  induction bytes generalizing c with
  | nil => 
    refine ⟨rfl, fun j hj => ?_⟩
    rw [dif_neg (by simp)]
    rfl
  | cons x bytes ih =>
    rw [List.length_cons] at h
    have hf : (c.absorb x).fill.val = c.fill.val + 1 := by rw [Regs.absorb_fill]; omega
    obtain ⟨ihh, ihb⟩ := ih (c.absorb x) (by omega)
    refine ⟨by rw [Regs.absorbAll_cons, ihh, Regs.absorb_h, if_neg (by omega)], fun j hj => ?_⟩
    simp only [Regs.absorbAll_cons, ihb j hj, hf, Regs.absorb_buf, Vector.getElem_set, List.length_cons]
    by_cases h1 : c.fill.val + 1 ≤ j ∧ j < c.fill.val + 1 + bytes.length
    · rw [dif_pos h1, dif_pos (by omega)]
      simp [show j - c.fill.val = (j - (c.fill.val + 1)) + 1 by omega]
    · rw [dif_neg h1]
      by_cases h2 : c.fill.val = j
      · simp [h2]
      · rw [if_neg h2, dif_neg (by omega)]

/-- Absorbing the bytes that fill an empty buffer compresses them as one block. -/
theorem Regs.absorbAll_block (bytes : List Byte) (hf : c.fill.val = 0) (h : bytes.length = 64) :
    (c.absorbAll bytes).h = compressFn c.h (blockOf bytes) := by
  obtain ⟨init, x, rfl⟩ : ∃ init x, bytes = init ++ [x] :=
    ⟨bytes.dropLast, bytes.getLast (by intro h0; simp [h0] at h), (List.dropLast_append_getLast _).symm⟩
  rw [List.length_append, List.length_singleton] at h
  obtain ⟨hh, hb⟩ := c.absorbAll_short init (by omega)
  have hfill : (c.absorbAll init).fill.val = 63 := by rw [Regs.absorbAll_fill]; omega
  rw [Regs.absorbAll_append, Regs.absorbAll_cons, Regs.absorbAll_nil, Regs.absorb_h, if_pos hfill, hh]
  refine congrArg (compressFn c.h) (Vector.ext ?_)
  intro i hi
  rw [blockOf_getElem _ _ hi (by simp; omega), List.getElem_append]
  simp only [Vector.getElem_set, hfill]
  by_cases h63 : i = 63
  · simp [h63, show init.length = 63 by omega]
  · rw [if_neg (by omega), dif_pos (by omega), hb i hi, dif_pos (by omega)]
    simp [hf]

/-- Absorbing whole blocks into an empty buffer compresses them in order. -/
theorem Regs.absorbAll_blocks (q : Nat) (bytes : List Byte) (hf : c.fill.val = 0) (h : bytes.length = 64 * q) :
    (c.absorbAll bytes).h = hashBlocks q c.h bytes := by
  induction q generalizing c bytes with
  | zero => simp [List.eq_nil_of_length_eq_zero h]
  | succ q ih =>
    conv_lhs => rw [← List.take_append_drop 64 bytes]
    have ht : (bytes.take 64).length = 64 := by rw [List.length_take]; omega
    have hb : blockOf (bytes.take 64) = blockOf bytes := by
      conv_rhs => rw [← List.take_append_drop 64 bytes, blockOf_append _ _ (by omega)]
    rw [Regs.absorbAll_append, ih _ _ (by rw [Regs.absorbAll_fill, ht, hf]) (by rw [List.length_drop]; omega),
      Regs.absorbAll_block c _ hf ht, hashBlocks_succ, hb]

/-! The registers `UPDATE` never writes (R91). -/

@[simp] theorem Regs.update_fin (chunk : List Byte) : (c.update chunk).fin = c.fin := by
  simp [Regs.update]
@[simp] theorem Regs.update_digest (chunk : List Byte) : (c.update chunk).digest = c.digest := by
  simp [Regs.update]
@[simp] theorem Regs.update_hex (chunk : List Byte) : (c.update chunk).hex = c.hex := by
  simp [Regs.update]

/-- The counter after `UPDATE` (R94). -/
@[simp] theorem Regs.update_bitcnt (chunk : List Byte) :
    (c.update chunk).bitcnt = c.bitcnt + BitVec.ofNat 64 (bitsOf chunk.length) := by
  simp [Regs.update]

/-- The fill count after `UPDATE` counts the stream's bytes modulo 64 (R101). -/
theorem Regs.update_fill (chunk : List Byte) :
    (c.update chunk).fill.val = (c.fill.val + chunk.length) % 64 := by
  have hk : c.topUp chunk.length = 0 ∨ c.topUp chunk.length = chunk.length ∨
      c.fill.val + c.topUp chunk.length = 64 := by unfold Regs.topUp; split <;> omega
  have hle : c.topUp chunk.length ≤ chunk.length := by unfold Regs.topUp; split <;> omega
  have hq : 64 * c.strides chunk.length ≤ chunk.length - c.topUp chunk.length := by
    unfold Regs.strides; omega
  simp only [Regs.update, Regs.withBitcnt_fill, Regs.absorbAll_fill, Regs.withH_fill, List.length_drop,
    List.length_take]
  omega

/-- Within the counter's capacity an `UPDATE` is admitted, whatever `BITCNT_OVERFLOW` is (D10). -/
theorem Regs.admits_of_fits {n : Nat} {c : Regs} (h : c.fits n = true) : c.admits n = true := by
  simp [Regs.admits, h]

theorem Regs.fits_iff {n : Nat} {c : Regs} : c.fits n = true ↔ c.bitcnt.toNat + bitsOf n < 2 ^ 64 := by
  simp [Regs.fits]

theorem Regs.admits_iff {n : Nat} {c : Regs} :
    c.admits n = true ↔ c.bitcnt.toNat + bitsOf n < 2 ^ 64 ∨ Config.bitcntOverflow = .wrap := by
  simp [Regs.admits, Regs.fits_iff]

/-- A fresh session admits a chunk exactly where its own bits fit the counter. -/
theorem Regs.newSession_fits {n : Nat} : c.newSession.fits n = true ↔ n < 2 ^ 61 := by
  rw [Regs.fits_iff]
  simp only [Regs.newSession_bitcnt, bitsOf, BitVec.ofNat_eq_ofNat, BitVec.toNat_ofNat]
  omega

/-- The phase check, by `FIN` (R130). -/
theorem requireActive_eq (run : Host.Outcome State Fault Refusal) (s : State) :
    requireActive run s = if s.regs.fin then reject .invalidState s else run := by
  cases h : s.regs.fin <;> simp [requireActive, Regs.phase, h]

/-- All that `UPDATE` can do (R91, R126, D10). -/
theorem execUpdate_cases (chunk : List Byte) (s : State) :
    (s.regs.fin = true ∧ execUpdate chunk s = .next (s.respond (.error .invalidState))) ∨
    (s.regs.fin = false ∧ s.regs.admits chunk.length = true ∧
      execUpdate chunk s = .next ((s.withRegs (s.regs.update chunk)).respond .ok)) ∨
    (s.regs.fin = false ∧ s.regs.admits chunk.length = false ∧ execUpdate chunk s = .refused .counterCapacity) := by
  unfold execUpdate
  rw [requireActive_eq]
  cases s.regs.fin <;> cases s.regs.admits chunk.length <;> simp [reject, accept]

end Sys2Proof.Machine
end

