-- ==== Sys2Proof/Laws/Agrees.lean ====
section
/-! SUPPORT. Agreement of register states up to stale buffer bytes (`10_state.md` R29): an equivalence that absorbing
bytes keeps. -/

namespace Sys2Proof.Machine

/-- Agreement up to stale bytes is kept by absorbing a byte. -/
theorem Regs.Agrees.absorb {c d : Regs} (h : c.Agrees d) (x : Byte) : (c.absorb x).Agrees (d.absorb x) := by
  obtain ⟨hh, hf, hc, hn, hd, hx, hb⟩ := h
  have hset : ∀ (j : Nat) (hj : j < 64), j ≤ c.fill.val →
      (c.buf.set c.fill.val x)[j] = (d.buf.set d.fill.val x)[j] := by
    intro j hj hle
    simp only [Vector.getElem_set, ← hf]
    split
    · rfl
    · exact hb ⟨j, hj⟩ (by rw [Fin.lt_def]; show j < c.fill.val; omega)
  refine ⟨?_, ?_, by simp [hc], by simp [hn], by simp [hd], by simp [hx], ?_⟩
  · have hv : c.fill.val = d.fill.val := congrArg Fin.val hf
    rw [Regs.absorb_h, Regs.absorb_h, ← hh]
    by_cases h63 : c.fill.val = 63
    · rw [if_pos h63, if_pos (by omega)]
      exact congrArg (compressFn c.h) (Vector.ext fun i hi => hset i hi (by omega))
    · rw [if_neg h63, if_neg (by omega)]
  · apply Fin.ext
    rw [Regs.absorb_fill, Regs.absorb_fill, hf]
  · intro i hi
    rw [Fin.lt_def, Regs.absorb_fill] at hi
    simp only [Regs.absorb_buf]
    have := c.fill.isLt
    exact hset i.val i.isLt (by omega)

/-- Agreement is kept by absorbing any number of bytes. -/
theorem Regs.Agrees.absorbAll {c d : Regs} (h : c.Agrees d) (bytes : List Byte) :
    (c.absorbAll bytes).Agrees (d.absorbAll bytes) := by
  induction bytes generalizing c d with
  | nil => exact h
  | cons x bytes ih => exact ih (h.absorb x)

/-! Agreement is an equivalence. -/

theorem Regs.Agrees.refl (c : Regs) : c.Agrees c := ⟨rfl, rfl, rfl, rfl, rfl, rfl, fun _ _ => rfl⟩

theorem Regs.Agrees.symm {c d : Regs} (h : c.Agrees d) : d.Agrees c := by
  obtain ⟨hh, hf, hc, hn, hd, hx, hb⟩ := h
  exact ⟨hh.symm, hf.symm, hc.symm, hn.symm, hd.symm, hx.symm, fun i hi => (hb i (hf ▸ hi)).symm⟩

theorem Regs.Agrees.trans {c d e : Regs} (h : c.Agrees d) (h' : d.Agrees e) : c.Agrees e := by
  obtain ⟨hh, hf, hc, hn, hd, hx, hb⟩ := h
  obtain ⟨hh', hf', hc', hn', hd', hx', hb'⟩ := h'
  exact ⟨hh.trans hh', hf.trans hf', hc.trans hc', hn.trans hn', hd.trans hd', hx.trans hx',
    fun i hi => (hb i hi).trans (hb' i (hf ▸ hi))⟩

/-- An empty buffer: absorbing whole blocks agrees with taking them directly. -/
theorem Regs.absorbAll_blocks_agrees (c : Regs) (q : Nat) (bytes : List Byte) (hf : c.fill.val = 0)
    (h : bytes.length = 64 * q) :
    (c.absorbAll bytes).Agrees (c.withH (hashBlocks q c.h bytes)) := by
  have hfill : (c.absorbAll bytes).fill.val = 0 := by rw [Regs.absorbAll_fill]; omega
  refine ⟨?_, ?_, by simp, by simp, by simp, by simp, ?_⟩
  · rw [Regs.absorbAll_blocks c q bytes hf h, Regs.withH_h]
  · apply Fin.ext; rw [hfill, Regs.withH_fill, hf]
  · intro i hi
    rw [Fin.lt_def, hfill] at hi
    omega

end Sys2Proof.Machine
end

