-- ==== Sys2Proof/Laws/Decode.lean ====
section
/-! SUPPORT. What the decoder can answer. -/

namespace Sys2Proof

@[simp] theorem decode_nil : decode [] = .idle := rfl

/-- What the payload half of the decoder answers: the chunk and the rest where the whole frame is there, and otherwise
that it is not (R57, R60). -/
theorem decodePayload_cases (op : Byte) (mk : List Byte → Instr) (tail : List Byte) :
    (decodePayload op mk tail = .truncated op ∧
      (tail.length < 8 ∨ tail.length < 8 + Machine.lenField tail)) ∨
    (8 + Machine.lenField tail ≤ tail.length ∧
      decodePayload op mk tail =
        .frame (mk ((tail.drop 8).take (Machine.lenField tail))) ((tail.drop 8).drop (Machine.lenField tail))) := by
  unfold decodePayload
  split
  · exact .inl ⟨rfl, .inl ‹_›⟩
  · split
    · rename_i h h'
      rw [List.length_drop] at h'
      exact .inl ⟨rfl, .inr (by omega)⟩
    · rename_i h h'
      rw [List.length_drop] at h'
      exact .inr ⟨by omega, rfl⟩

/-- What the decoder calls reserved is one byte that is no opcode (R59). -/
theorem decode_reserved {bytes : List Byte} {op : Byte} {rest : List Byte} (h : decode bytes = .reserved op rest) :
    bytes = op :: rest ∧ opcodeOf op = none := by
  cases bytes with
  | nil => simp at h
  | cons b tail =>
    rw [decode] at h
    split at h
    case h_1 => cases h; exact ⟨rfl, ‹_›⟩
    case h_3 => obtain ⟨he, _⟩ | ⟨_, he⟩ := decodePayload_cases b .update tail <;> simp [he] at h
    case h_5 => obtain ⟨he, _⟩ | ⟨_, he⟩ := decodePayload_cases b .digestHex tail <;> simp [he] at h
    all_goals cases h

/-- Where a byte has been issued the core has something to do. -/
theorem decode_cons_ne_idle (op : Byte) (tail : List Byte) : decode (op :: tail) ≠ .idle := by
  rw [decode]
  split
  case h_3 => obtain ⟨he, _⟩ | ⟨_, he⟩ := decodePayload_cases op .update tail <;> simp [he]
  case h_5 => obtain ⟨he, _⟩ | ⟨_, he⟩ := decodePayload_cases op .digestHex tail <;> simp [he]
  all_goals simp

end Sys2Proof
end

