-- ==== Sys2Proof/Laws/Finalization.lean ====
section
/-! SUPPORT. What the operations of the finalizer and serializer do. -/

namespace Sys2Proof.Machine

variable (c : Regs)

/-! The registers `PAD` never writes (R105, R109). -/

@[simp] theorem Regs.padTo56_bitcnt : c.padTo56.bitcnt = c.bitcnt := by
  unfold Regs.padTo56
  split <;> simp [Regs.appendMarker, Regs.extraBlock, Regs.zeroTo56]
@[simp] theorem Regs.padTo56_fin : c.padTo56.fin = c.fin := by
  unfold Regs.padTo56
  split <;> simp [Regs.appendMarker, Regs.extraBlock, Regs.zeroTo56]
@[simp] theorem Regs.padTo56_digest : c.padTo56.digest = c.digest := by
  unfold Regs.padTo56
  split <;> simp [Regs.appendMarker, Regs.extraBlock, Regs.zeroTo56]
@[simp] theorem Regs.padTo56_hex : c.padTo56.hex = c.hex := by
  unfold Regs.padTo56
  split <;> simp [Regs.appendMarker, Regs.extraBlock, Regs.zeroTo56]

/-- Steps 1 to 3 where one block is enough: the marker, then zeros to byte 56, and no compression (R106 to R108). -/
theorem Regs.padTo56_short (h : c.fill.val < 56) :
    c.padTo56.h = c.h ∧
    c.padTo56.buf = zeroFill (c.buf.set c.fill.val padByte) (c.fill.val + 1) 56 := by
  have hn : needsExtraBlock c.fill.val = false := by
    rw [needsExtraBlock, decide_eq_false_iff_not, padThreshold]; omega
  simp [Regs.padTo56, hn, Regs.zeroTo56, Regs.appendMarker]

/-- Steps 1 to 3 where an extra block is needed: the block with the marker, zero-padded, is compressed, and zeros are
left up to byte 56 (R106 to R108). -/
theorem Regs.padTo56_long (h : 56 ≤ c.fill.val) :
    c.padTo56.h = compressFn c.h (zeroFill (c.buf.set c.fill.val padByte) (c.fill.val + 1) 64) ∧
    ∀ (j : Nat) (hj : j < 64), c.padTo56.buf[j] = 0x00 := by
  have hn : needsExtraBlock c.fill.val = true := by
    rw [needsExtraBlock, decide_eq_true_eq, padThreshold]; omega
  refine ⟨by simp [Regs.padTo56, hn, Regs.zeroTo56, Regs.extraBlock, Regs.appendMarker], fun j hj => ?_⟩
  simp only [Regs.padTo56, hn, if_true, Regs.zeroTo56, Regs.extraBlock, Regs.withBuf_buf, zeroFill_getElem]
  split
  · rfl
  · rw [if_pos (by omega)]

@[simp] theorem Regs.pad_bitcnt : c.pad.bitcnt = c.bitcnt := by
  simp [Regs.pad, Regs.appendLength, Regs.finalBlock]
@[simp] theorem Regs.pad_fin : c.pad.fin = c.fin := by
  simp [Regs.pad, Regs.appendLength, Regs.finalBlock]
@[simp] theorem Regs.pad_digest : c.pad.digest = c.digest := by
  simp [Regs.pad, Regs.appendLength, Regs.finalBlock]
@[simp] theorem Regs.pad_hex : c.pad.hex = c.hex := by
  simp [Regs.pad, Regs.appendLength, Regs.finalBlock]

/-! The registers `PAD` writes: the last padded block stays in `BUF`, is compressed, and leaves the buffer empty
(R109, R110). -/

@[simp] theorem Regs.pad_fill : c.pad.fill = 0 := by
  simp [Regs.pad, Regs.finalBlock]
theorem Regs.pad_buf : c.pad.buf = memWrite c.padTo56.buf 56 (be64Bytes c.bitcnt) := by
  simp [Regs.pad, Regs.appendLength, Regs.finalBlock]
theorem Regs.pad_h : c.pad.h = compressFn c.padTo56.h c.pad.buf := by
  simp [Regs.pad, Regs.appendLength, Regs.finalBlock]

/-! `FINISH` (R113), one register at a time. -/

@[simp] theorem Regs.finish_h : c.finish.h = c.pad.h := by
  simp [Regs.finish, Regs.emit]
@[simp] theorem Regs.finish_buf : c.finish.buf = c.pad.buf := by
  simp [Regs.finish, Regs.emit]
@[simp] theorem Regs.finish_fill : c.finish.fill = 0 := by
  simp [Regs.finish, Regs.emit]
@[simp] theorem Regs.finish_bitcnt : c.finish.bitcnt = c.bitcnt := by
  simp [Regs.finish, Regs.emit]
@[simp] theorem Regs.finish_fin : c.finish.fin = true := by
  simp [Regs.finish, Regs.emit]
@[simp] theorem Regs.finish_digest : c.finish.digest = some (serialize c.pad.h) := by
  simp [Regs.finish, Regs.emit]
@[simp] theorem Regs.finish_hex : c.finish.hex = some (hexRender (serialize c.pad.h)) := by
  simp [Regs.finish, Regs.emit]

/-- `SERIALIZE` at one byte: byte `j % 4` of word `j / 4`, most significant first (R111). -/
theorem serialize_getElem (h : StateWords) (j : Nat) (hj : j < 20) :
    (serialize h)[j] = (be32Bytes h[j / 4])[j % 4]'(Nat.mod_lt _ (by decide)) := by
  simp [serialize]

/-- `HEXRENDER` at one character (R112). -/
theorem hexRender_getElem (d : DigestBytes) (m : Nat) (hm : m < 40) :
    (hexRender d)[m] =
      if m % 2 = 0 then hexDigit (d[m / 2].extractLsb' 4 4) else hexDigit (d[m / 2].extractLsb' 0 4) := by
  simp [hexRender]

/-- All that `FINISH` can do (R113, R127). -/
theorem execFinish_cases (s : State) :
    (s.regs.fin = true ∧ execFinish s = .next (s.respond (.error .invalidState))) ∨
    (s.regs.fin = false ∧ execFinish s =
      .next ((s.withRegs s.regs.finish).respond
        (.okDigest (serialize s.regs.pad.h) (hexRender (serialize s.regs.pad.h))))) := by
  unfold execFinish
  rw [requireActive_eq]
  cases s.regs.fin <;> simp [reject, accept]

/-- All that `DIGEST_HEX` can do (R116, D10). -/
theorem execDigestHex_cases (chunk : List Byte) (s : State) :
    (s.regs.newSession.admits chunk.length = true ∧ execDigestHex chunk s =
      .next ((s.withRegs (s.regs.digestHex chunk)).respond
        (.okHex (hexRender (serialize (s.regs.digestHex chunk).h))))) ∨
    (s.regs.newSession.admits chunk.length = false ∧ execDigestHex chunk s = .refused .counterCapacity) := by
  unfold execDigestHex
  cases s.regs.newSession.admits chunk.length <;> simp [accept]

end Sys2Proof.Machine
end

