-- ==== Sys2Proof/Laws/PerInstr.lean ====
section
/-! SUPPORT. Per-command laws: the shape of every command's frame (`30_encoding.md` R56). -/

namespace Sys2Proof.Laws.FrameShape

/-- The frame of a command is as long as its format says: 1 byte, or `9 + LEN` (R56). -/
def Statement (i : Instr) : Prop :=
  (encode i).length =
    match i with
    | .new => 1
    | .update chunk => 9 + chunk.length
    | .finish => 1
    | .digestHex chunk => 9 + chunk.length

theorem new : Statement .new := rfl

theorem update (chunk : List Byte) : Statement (.update chunk) := by
  simp [Statement, encode]; omega

theorem finish : Statement .finish := rfl

theorem digestHex (chunk : List Byte) : Statement (.digestHex chunk) := by
  simp [Statement, encode]; omega

end Sys2Proof.Laws.FrameShape
end

