-- ==== Sys2Proof/Laws/Step.lean ====
section
/-! SUPPORT. All that one step can do. -/

namespace Sys2Proof.Machine

/-- The registers a command leaves, where it runs (R90, R91, R113, R116). -/
theorem exec_cases {i : Instr} {s t : State} (h : exec i s = .next t) :
    (∃ e, t = s.respond (.error e)) ∨
    (i = .new ∧ t = (s.withRegs s.regs.newSession).respond .ok) ∨
    (∃ chunk, i = .update chunk ∧ s.regs.fin = false ∧ s.regs.admits chunk.length = true ∧
      t = (s.withRegs (s.regs.update chunk)).respond .ok) ∨
    (i = .finish ∧ s.regs.fin = false ∧ t = (s.withRegs s.regs.finish).respond
      (.okDigest (serialize s.regs.pad.h) (hexRender (serialize s.regs.pad.h)))) ∨
    (∃ chunk, i = .digestHex chunk ∧ s.regs.newSession.admits chunk.length = true ∧
      t = (s.withRegs (s.regs.digestHex chunk)).respond
        (.okHex (hexRender (serialize (s.regs.digestHex chunk).h)))) := by
  cases i with
  | new =>
    cases h
    exact .inr (.inl ⟨rfl, rfl⟩)
  | update chunk =>
    rw [exec] at h
    obtain ⟨_, he⟩ | ⟨hf, ha, he⟩ | ⟨_, _, he⟩ := execUpdate_cases chunk s <;> rw [he] at h <;> cases h
    · exact .inl ⟨_, rfl⟩
    · exact .inr (.inr (.inl ⟨chunk, rfl, hf, ha, rfl⟩))
  | finish =>
    rw [exec] at h
    obtain ⟨_, he⟩ | ⟨hf, he⟩ := execFinish_cases s <;> rw [he] at h <;> cases h
    · exact .inl ⟨_, rfl⟩
    · exact .inr (.inr (.inr (.inl ⟨rfl, hf, rfl⟩)))
  | digestHex chunk =>
    rw [exec] at h
    obtain ⟨ha, he⟩ | ⟨_, he⟩ := execDigestHex_cases chunk s <;> rw [he] at h <;> cases h
    exact .inr (.inr (.inr (.inr ⟨chunk, rfl, ha, rfl⟩)))

/-- All that one step can do, where it answers a next state: reset, wait, run a command, or reject a reserved opcode
(R145, R140, R65, R59). -/
theorem step_cases {s t : State} (h : step s = .next t) :
    (s.resetReq = true ∧ t = s.takeReset) ∨
    (s.resetReq = false ∧ s.frames = [] ∧ t = s) ∨
    (s.resetReq = false ∧ ∃ i rest, decode s.frames = .frame i rest ∧ exec i (s.withFrames rest) = .next t) ∨
    (s.resetReq = false ∧ ∃ op rest, decode s.frames = .reserved op rest ∧
      t = (s.withFrames rest).respond (.error .illegalCommand)) := by
  unfold step runNext at h
  cases hr : s.resetReq with
  | true =>
    rw [if_pos hr] at h
    cases h
    exact .inl ⟨rfl, rfl⟩
  | false =>
    rw [if_neg (by simp [hr])] at h
    cases hd : decode s.frames with
    | idle =>
      rw [hd] at h
      cases h
      refine .inr (.inl ⟨rfl, ?_, rfl⟩)
      cases hf : s.frames with
      | nil => rfl
      | cons op tail =>
        exact absurd hd (by rw [hf]; exact decode_cons_ne_idle op tail)
    | frame i rest =>
      rw [hd] at h
      exact .inr (.inr (.inl ⟨rfl, i, rest, rfl, h⟩))
    | reserved op rest =>
      rw [hd] at h
      cases h
      exact .inr (.inr (.inr ⟨rfl, op, rest, rfl, rfl⟩))
    | truncated op => rw [hd] at h; cases h

end Sys2Proof.Machine
end

