-- ==== Sys2Proof/Tests/Slice0.lean ====
section
/-! SUPPORT. The model's own tests. Expected values come from the spec: `95_test_vectors.md` (its section is named at each
test) and the encoding tables of `30_encoding.md`. The second half holds one witness per hypothesis of the statements in
`Certificates/Slice0/Obligations.lean`. -/

set_option maxRecDepth 100000

namespace Sys2Proof.Tests

open Sys2Proof Sys2Proof.Machine

/-- A fresh session with this command stream. -/
def issued (frames : List Byte) : State := State.reset.send frames

/-- A finished session (of no particular stream) with this command stream. -/
def finishedState (frames : List Byte) : State :=
  { regs := { Regs.reset with
      fin := true, digest := some (serialize iv), hex := some (hexRender (serialize iv)) }
    frames := frames, responses := [], resetReq := false }

/-- A fresh session but for its fill count, counter and buffer. -/
def openRegs (fill : Fin 64) (bitcnt : DWord) (buf : Block) : Regs :=
  { Regs.reset with fill := fill, bitcnt := bitcnt, buf := buf }

/-- Whether an outcome is a next state that passes a check. -/
def isNext (o : Host.Outcome State Fault Refusal) (check : State → Bool) : Bool :=
  match o with
  | .next t => check t
  | .fault _ => false
  | .refused _ => false

/-- An outcome that passes the check that asks nothing is a next state. -/
theorem answers {o : Host.Outcome State Fault Refusal} (h : isNext o (fun _ => true) = true) : ∃ t, o = .next t := by
  cases o with
  | next t => exact ⟨t, rfl⟩
  | fault r => cases r
  | refused r => simp [isNext] at h

/-- An outcome that passes the comparison with a state is that next state. -/
theorem answersWith {o : Host.Outcome State Fault Refusal} {u : State}
    (h : isNext o (fun t => decide (t = u)) = true) : o = .next u := by
  cases o with
  | next t => exact congrArg _ (of_decide_eq_true h)
  | fault r => cases r
  | refused r => simp [isNext] at h

/-! ## Well-formedness -/

theorem test_wf_refuses_long_update : (Instr.update (List.replicate (2 ^ 64) 0)).wf = false := by
  simp only [Instr.wf, lenFits, List.length_replicate]; decide

theorem test_wf_refuses_long_digestHex : (Instr.digestHex (List.replicate (2 ^ 64) 0)).wf = false := by
  simp only [Instr.wf, lenFits, List.length_replicate]; decide

theorem test_wf_accepts_largest_len : (Instr.update (List.replicate (2 ^ 64 - 1) 0)).wf = true := by
  simp only [Instr.wf, lenFits, List.length_replicate]; decide

/-! ## Frames (`30_encoding.md` R56 to R60; `95_test_vectors.md` section 7) -/

theorem test_decode_new : decode [0b00000001] = .frame .new [] := by decide
theorem test_decode_finish : decode [0b00000011, 0xFF] = .frame .finish [0xFF] := by decide
theorem test_decode_update_abc :
    decode [0b00000010, 0, 0, 0, 0, 0, 0, 0, 3, 0x61, 0x62, 0x63] = .frame (.update [0x61, 0x62, 0x63]) [] := by
  decide
theorem test_decode_digestHex_empty :
    decode [0b00000100, 0, 0, 0, 0, 0, 0, 0, 0, 0x03] = .frame (.digestHex []) [0x03] := by decide
theorem test_decode_reserved_zero : decode [0x00, 0x01] = .reserved 0x00 [0x01] := by decide
theorem test_decode_reserved_five : decode [0x05] = .reserved 0x05 [] := by decide
theorem test_decode_truncated_len : decode [0x02, 0, 0, 0, 0, 0, 0, 0] = .truncated 0x02 := by decide
theorem test_decode_truncated_payload : decode [0x04, 0, 0, 0, 0, 0, 0, 0, 1] = .truncated 0x04 := by decide
theorem test_len_256 : lenField [0, 0, 0, 0, 0, 0, 1, 0] = 256 := by decide
theorem test_len_2_32 : lenField [0, 0, 0, 1, 0, 0, 0, 0, 0x61] = 2 ^ 32 := by decide
theorem test_encode_update_c : encode (.update [0x63]) = [0x02, 0, 0, 0, 0, 0, 0, 0, 1, 0x63] := by decide
theorem test_encode_digestHex_empty : encode (.digestHex []) = [0x04, 0, 0, 0, 0, 0, 0, 0, 0] := by decide

theorem test_table_new : decodeTableWord 8 0x01 = some .new := by decide
theorem test_table_update : decodeTableWord 8 0x02 = some (.update []) := by decide
theorem test_table_finish : decodeTableWord 8 0x03 = some .finish := by decide
theorem test_table_digestHex : decodeTableWord 8 0x04 = some (.digestHex []) := by decide
theorem test_table_runs_finish :
    isNext (step (State.reset.withFetchWord 8 0x03)) (fun t => t.regs.fin && t.frames.isEmpty) = true := by decide

/-! ## The notation for test programs (R62) -/

theorem test_assemble_text :
    assemble (['N', 'E', 'W', '\n', 'U', 'P', 'D', 'A', 'T', 'E', ' ', ' ', quote, 'a', ';', 'c', quote, ' ', ';', 'x',
      '\n', '\n', ';', '\n', 'F', 'I', 'N', 'I', 'S', 'H']) = some [.new, .update [0x61, 0x3b, 0x63], .finish] := by decide
theorem test_assemble_repeat :
    assembleLine ['D', 'I', 'G', 'E', 'S', 'T', '_', 'H', 'E', 'X', ' ', '6', '1', '*', '1', '2'] =
      some [.digestHex (List.replicate 12 0x61)] := by decide
theorem test_assemble_refuses_odd_hex :
    assembleLine ['U', 'P', 'D', 'A', 'T', 'E', ' ', 'x', quote, '6', '1', '6', quote] = none := by decide

/-! ## Primitives (`95_test_vectors.md` section 2) -/

theorem test_rotl_1 : rotl 1 0x80000000 = 0x00000001 := by decide
theorem test_rotl_5 : rotl 5 0x12345678 = 0x468ACF02 := by decide
theorem test_rotl_30 : rotl 30 0xEFCDAB89 = 0x7BF36AE2 := by decide
theorem test_be : be [0x61, 0x62, 0x63, 0x80] = 0x61626380 := by decide
theorem test_be32Bytes : (be32Bytes 0xA9993E36).toList = [0xa9, 0x99, 0x3e, 0x36] := by decide
theorem test_be64Bytes :
    (be64Bytes 0x0123456789ABCDE8).toList = [0x01, 0x23, 0x45, 0x67, 0x89, 0xab, 0xcd, 0xe8] := by decide
theorem test_kind0 : roundF .kind0 0xF0F0F0F0 0xCCCCCCCC 0xAAAAAAAA = 0xCACACACA := by decide
theorem test_kind1 : roundF .kind1 0xF0F0F0F0 0xCCCCCCCC 0xAAAAAAAA = 0x96969696 := by decide
theorem test_kind2 : roundF .kind2 0xFFFFFFFF 0x12345678 0x9ABCDEF0 = 0x9ABCDEF8 := by decide
theorem test_kind3 : roundF .kind3 0x00000000 0x12345678 0x9ABCDEF0 = 0x88888888 := by decide
theorem test_hexRender :
    ((hexRender (serialize #v[0x00070aa9, 0xff000000, 0, 0, 0])).toList.take 10) =
      [0x30, 0x30, 0x30, 0x37, 0x30, 0x61, 0x61, 0x39, 0x66, 0x66] := by decide

/-! ## `COMPRESS` (`95_test_vectors.md` sections 3 and 4) -/

/-- The padded block of the message "abc". -/
def abcBlock : Block := blockOf ([0x61, 0x62, 0x63, 0x80] ++ List.replicate 59 0x00 ++ [0x18])

theorem test_sched_abc :
    (sched (parse abcBlock))[16] = 0xc2c4c700 ∧ (sched (parse abcBlock))[19] = 0x85898e01 ∧
    (sched (parse abcBlock))[79] = 0x822e0879 := by decide

theorem test_round_0_abc :
    roundStep 0 0x61626380 (workOf iv) = ⟨0x0116fc33, 0x67452301, 0x7bf36ae2, 0x98badcfe, 0x10325476⟩ := by decide

theorem test_compress_abc :
    compressFn iv abcBlock = #v[0xA9993E36, 0x4706816A, 0xBA3E2571, 0x7850C26C, 0x9CD0D89D] := by decide

theorem test_compress_zero :
    compressFn (Vector.replicate 5 0) (Vector.replicate 64 0) =
      #v[0x9e1547ed, 0x57ec91c2, 0x30fa8bc8, 0xc7785a54, 0xa7efa5e3] := by decide

/-! ## The commands (`95_test_vectors.md` sections 1, 5, 7, 8, 9) -/

/-- From a finished session `NEW` leaves `H = IV`, an empty buffer and no digest (R90). -/
theorem test_new :
    isNext (exec .new (finishedState [])) (fun t =>
      decide (t.regs.h = iv ∧ t.regs.fin = false ∧ t.regs.hex = none ∧ t.responses = [.ok])) = true := by decide

/-- P1 step 2: `UPDATE "abc"` on a fresh session. -/
theorem test_update_abc :
    isNext (step (issued [0x02, 0, 0, 0, 0, 0, 0, 0, 3, 0x61, 0x62, 0x63])) (fun t =>
      decide (t.regs.h = iv ∧ t.regs.fill = 3 ∧ t.regs.bitcnt = 24 ∧ t.regs.buf[2] = 0x63 ∧
        t.frames = [])) = true := by decide

/-- R101: one byte at `FILL = 63` completes the block; here 64 bytes of 0x61 (section 6). -/
theorem test_update_completes_block :
    isNext (exec (.update [0x61]) ((issued []).withRegs (openRegs 63 504 (Vector.replicate 64 0x61)))) (fun t =>
      decide (t.regs.h = #v[0xda4968eb, 0x2e377c1f, 0x884e8f52, 0x83524beb, 0xe74ebdbd] ∧ t.regs.fill = 0 ∧
        t.regs.bitcnt = 512)) = true := by decide

/-- P3: `FINISH` of 56 bytes of 0x61, the branch with two compressions. -/
theorem test_finish_two_blocks :
    isNext (exec .finish ((issued []).withRegs (openRegs 56 448 (Vector.replicate 64 0x61)))) (fun t =>
      decide (t.regs.h = #v[0xc2db330f, 0x6083854c, 0x99d4b5bf, 0xb6e8f29f, 0x201be699] ∧ t.regs.fill = 0 ∧
        t.regs.bitcnt = 448 ∧ t.regs.fin = true)) = true := by decide

/-- Section 8: `FINISH` with a counter that uses all eight length bytes. -/
theorem test_finish_large_counter :
    isNext (exec .finish ((issued []).withRegs (openRegs 0 0x0123456789ABCC00 (Vector.replicate 64 0)))) (fun t =>
      decide (t.regs.h = #v[0xd9ae95fd, 0x784d56ec, 0x851694f1, 0x5c942f5d, 0x5469a5f1])) = true := by decide

/-- The empty stream's known answer (section 1), from a finished session, as the 41 response bytes of section 7. -/
theorem test_digestHex_empty :
    isNext (exec (.digestHex []) (finishedState [])) (fun t =>
      decide (outputBytes t =
        [0x00, 0x64, 0x61, 0x33, 0x39, 0x61, 0x33, 0x65, 0x65, 0x35, 0x65, 0x36, 0x62, 0x34, 0x62, 0x30, 0x64, 0x33,
         0x32, 0x35, 0x35, 0x62, 0x66, 0x65, 0x66, 0x39, 0x35, 0x36, 0x30, 0x31, 0x38, 0x39, 0x30, 0x61, 0x66, 0x64,
         0x38, 0x30, 0x37, 0x30, 0x39])) = true := by decide

/-- The fox sentence's known answer (section 1). -/
theorem test_digestHex_fox :
    isNext (exec (.digestHex
      [0x54, 0x68, 0x65, 0x20, 0x71, 0x75, 0x69, 0x63, 0x6b, 0x20, 0x62, 0x72, 0x6f, 0x77, 0x6e, 0x20, 0x66, 0x6f, 0x78,
       0x20, 0x6a, 0x75, 0x6d, 0x70, 0x73, 0x20, 0x6f, 0x76, 0x65, 0x72, 0x20, 0x74, 0x68, 0x65, 0x20, 0x6c, 0x61, 0x7a,
       0x79, 0x20, 0x64, 0x6f, 0x67]) State.reset) (fun t =>
      decide (t.regs.h = #v[0x2fd4e1c6, 0x7a2d28fc, 0xed849ee1, 0xbb76e739, 0x1b93eb12] ∧
        t.regs.bitcnt = 344)) = true := by decide

/-- E2: the payload of a rejected `UPDATE` is consumed, not decoded; nothing else changes. -/
theorem test_rejected_update :
    isNext (step (finishedState [0x02, 0, 0, 0, 0, 0, 0, 0, 2, 0x01, 0x03, 0x03])) (fun t =>
      decide (t = (finishedState [0x03]).respond (.error .invalidState) ∧ outputBytes t = [0x01])) = true := by decide

/-- E1: a reserved opcode is one byte, answered `02`. -/
theorem test_reserved_opcode :
    isNext (step (issued [0x00, 0x01])) (fun t =>
      decide (t = (issued [0x01]).respond (.error .illegalCommand) ∧ outputBytes t = [0x02])) = true := by decide

/-- R145: a reset discards the session, digest and all. -/
theorem test_reset_request :
    isNext (step (finishedState []).requestReset) (fun t => decide (t = State.reset)) = true := by decide

/-! ## Witnesses: the hypotheses of the statements can be met -/

theorem witness_DecodeEncodeRoundTrip : (Instr.update [0x61]).wf = true ∧ Instr.new.wf = true := by decide
theorem witness_DecodeReadsWholeFrames : decode [0x01] = .frame .new [] := by decide
theorem witness_LenFieldIsBigEndian :
    [0, 0, 0, 0, 0, 0, 0, (1 : Byte)].length = 8 ∧ [(0x61 : Byte)].length = be [0, 0, 0, 0, 0, 0, 0, 1] ∧
    2 ^ 61 ≤ 2 ^ 61 := by decide
theorem witness_OpcodeMap :
    ((0x00 : Byte) ≠ 0x01 ∧ (0x00 : Byte) ≠ 0x02 ∧ (0x00 : Byte) ≠ 0x03 ∧ (0x00 : Byte) ≠ 0x04) ∧
    ((0x05 : Byte) ≠ 0x01 ∧ (0x05 : Byte) ≠ 0x02 ∧ (0x05 : Byte) ≠ 0x03 ∧ (0x05 : Byte) ≠ 0x04) := by decide
theorem witness_ReservedOpcodeIsRejected :
    (issued [0x05]).resetReq = false ∧ (issued [0x05]).frames = 0x05 :: [] ∧
    (0x05 : Byte) ≠ 0x01 ∧ (0x05 : Byte) ≠ 0x02 ∧ (0x05 : Byte) ≠ 0x03 ∧ (0x05 : Byte) ≠ 0x04 := by decide
theorem witness_TruncatedFrameHasNoMove :
    ((issued [0x02]).resetReq = false ∧ (issued [0x02]).frames = 0x02 :: [] ∧ ([] : List Byte).length < 8) ∧
    ((issued [0x04, 0, 0, 0, 0, 0, 0, 0, 1]).frames = 0x04 :: [0, 0, 0, 0, 0, 0, 0, 1] ∧
      [0, 0, 0, 0, 0, 0, 0, (1 : Byte)].length < 8 + lenField [0, 0, 0, 0, 0, 0, 0, 1]) := by decide
theorem witness_StepRunsDecoded :
    (issued [0x01]).resetReq = false ∧ decode (issued [0x01]).frames = .frame .new [] := by decide
theorem witness_IdleStepChangesNothing : State.reset.resetReq = false ∧ State.reset.frames = [] := by decide
theorem witness_ResetRequestIsTakenFirst : (finishedState []).requestReset.resetReq = true := by decide
theorem witness_LifecycleTable :
    (State.reset.regs.phase = .active ∧ State.reset.regs.fits [(0x61 : Byte)].length = true) ∧
    (finishedState []).regs.phase = .finished ∧ [(0x61 : Byte)].length < 2 ^ 61 ∧
    ((issued [0x00]).resetReq = false ∧ decode (issued [0x00]).frames = .reserved 0x00 []) ∧
    State.reset.requestReset.resetReq = true := by decide
theorem witness_AbsorbOneByte :
    (openRegs 63 504 (Vector.replicate 64 0)).fill.val = 63 ∧
    (openRegs 62 496 (Vector.replicate 64 0)).fill.val < 63 := by decide

/-- A fresh session but for a counter 16 below its capacity, the last one that takes one more byte. -/
def nearlyFull : State := (issued []).withRegs (openRegs 62 0xFFFFFFFFFFFFFFF0 (Vector.replicate 64 0))

/-- The largest reachable counter: no further byte fits. -/
def full : State := (issued []).withRegs (openRegs 63 0xFFFFFFFFFFFFFFF8 (Vector.replicate 64 0))

theorem witness_UpdateIsBytewise :
    nearlyFull.regs.fin = false ∧ nearlyFull.regs.bitcnt.toNat + 8 * [(0x61 : Byte)].length < 2 ^ 64 := by decide
theorem witness_UpdateCountsMessageBits :
    (nearlyFull.regs.fin = false ∧ nearlyFull.regs.bitcnt.toNat + 8 * [(0x61 : Byte)].length < 2 ^ 64) ∧
    (finishedState []).regs.fin = true ∧ ([[0x61], [0x62, 0x63]] : List (List Byte)).flatten.length ≤ 2 ^ 61 - 1 := by
  decide
theorem witness_EmptyUpdate : State.reset.regs.fin = false ∧ (finishedState []).regs.fin = true := by decide
theorem witness_UpdateFrame :
    (∃ t, exec (.update [0x61]) nearlyFull = .next t) ∧ nearlyFull.regs.fin = false ∧
    nearlyFull.regs.fill.val + [(0x61 : Byte)].length < 64 ∧
    (∃ t, exec (.update [0x61]) (finishedState []) = .next t) ∧ (finishedState []).regs.fin = true :=
  ⟨answers (by decide), rfl, by decide, answers (by decide), rfl⟩
theorem witness_UpdateFrame_bytes :
    ¬ (nearlyFull.regs.fill.val ≤ 63 ∧ 63 < nearlyFull.regs.fill.val + nearlyFull.regs.topUp 1) ∧
    ¬ (63 < nearlyFull.regs.remainder 1) := by decide
theorem witness_CapacityIsAParameter :
    full.regs.fin = false ∧ 2 ^ 64 ≤ full.regs.bitcnt.toNat + 8 * [(0x61 : Byte)].length := by decide
theorem witness_CapacityIsAParameter_digestHex : 2 ^ 61 ≤ (List.replicate (2 ^ 61) (0x61 : Byte)).length := by
  rw [List.length_replicate]
theorem witness_ChunkingInvariance :
    ([[0x61, 0x62], [], [0x63]] : List (List Byte)).flatten = [[0x61], [0x62, 0x63]].flatten := by decide
theorem witness_PartitionLeavesSameState :
    ([[0x61, 0x62], [], [0x63]] : List (List Byte)).flatten = [[], [0x61, 0x62, 0x63]].flatten := by decide
theorem witness_StreamClosedForm :
    ([[0x61], [0x62, 0x63]] : List (List Byte)).flatten.length ≤ 2 ^ 61 - 1 ∧
    (2 : Fin 64).val < ([[0x61], [0x62, 0x63]] : List (List Byte)).flatten.length % 64 := by decide
theorem witness_RotationMovesBits : (0 < 1 ∧ 1 < 32) ∧ (0 < 31 ∧ 31 < 32) := by decide
theorem witness_ScheduleRecurrence : 16 ≤ 16 ∧ 16 < 80 ∧ 16 ≤ 79 ∧ 79 < 80 := by decide
theorem witness_RoundStepRule :
    ((0 : Fin 80).val < 20 ∧ (19 : Fin 80).val < 20) ∧
    (20 ≤ (20 : Fin 80).val ∧ (20 : Fin 80).val < 40 ∧ (39 : Fin 80).val < 40) ∧
    (40 ≤ (40 : Fin 80).val ∧ (40 : Fin 80).val < 60 ∧ (59 : Fin 80).val < 60) ∧
    (60 ≤ (60 : Fin 80).val ∧ 60 ≤ (79 : Fin 80).val) := by decide
theorem witness_RoundFunctionsBitwise :
    kindOf 19 = .kind0 ∧ kindOf 20 = .kind1 ∧ kindOf 39 = .kind1 ∧ kindOf 40 = .kind2 ∧ kindOf 59 = .kind2 ∧
    kindOf 60 = .kind3 ∧ kindOf 79 = .kind3 := by decide
theorem witness_PadLayout :
    (openRegs 55 440 (Vector.replicate 64 0)).fill.val < 56 ∧
    56 ≤ (openRegs 56 448 (Vector.replicate 64 0)).fill.val := by decide
theorem witness_FinishProducesDigest : State.reset.regs.fin = false ∧ (finishedState []).regs.fin = true := by decide
theorem witness_FinishFrame :
    (∃ t, exec .finish State.reset = .next t) ∧ (∃ t, exec .finish (finishedState []) = .next t) ∧
    State.reset.regs.fin = false ∧ (finishedState []).regs.fin = true ∧
    (openRegs 55 440 (Vector.replicate 64 0)).fill.val < 56 ∧
    (54 : Fin 64).val < (openRegs 55 440 (Vector.replicate 64 0)).fill.val :=
  ⟨answers (by decide), answers (by decide), rfl, rfl, by decide, by decide⟩
theorem witness_DigestHexIsComposition : ([0x61] : List Byte).length < 2 ^ 61 := by decide
theorem witness_DigestHexAnswersSha1 : (List.replicate (2 ^ 61 - 1) (0x61 : Byte)).length < 2 ^ 61 := by
  rw [List.length_replicate]; decide
theorem witness_SessionAnswersSha1 :
    let s := issued ([0x01] ++ [0x02, 0, 0, 0, 0, 0, 0, 0, 1, 0x61] ++ [0x03] ++ [0x01])
    s.resetReq = false ∧ ([[0x61]] : List (List Byte)).flatten.length < 2 ^ 61 ∧
    s.frames = encode .new ++ ([[0x61]] : List (List Byte)).flatMap (fun chunk => encode (.update chunk)) ++
      encode .finish ++ [0x01] := by decide
theorem witness_UpdateAfterFinishIsRejected : (finishedState []).regs.fin = true := by decide
theorem witness_SecondFinishIsRejected : (finishedState []).regs.fin = true ∧ State.reset.regs.fin = false := by decide
theorem witness_RejectionChangesNothing :
    (finishedState [0x03]).resetReq = false ∧
    step (finishedState [0x03]) = .next ((finishedState []).respond (.error .invalidState)) ∧
    ((finishedState []).respond (.error .invalidState)).responses =
      (finishedState [0x03]).responses ++ [Response.error .invalidState] :=
  ⟨rfl, answersWith (u := (finishedState []).respond (.error .invalidState)) (by decide), rfl⟩
theorem witness_RejectionChangesNothing_update :
    step (finishedState [0x02, 0, 0, 0, 0, 0, 0, 0, 0, 0x01]) =
      .next ((finishedState [0x01]).respond (.error .invalidState)) :=
  answersWith (u := (finishedState [0x01]).respond (.error .invalidState)) (by decide)
theorem witness_RejectionChangesNothing_reserved :
    step (issued [0x05, 0x01]) = .next ((issued [0x01]).respond (.error .illegalCommand)) :=
  answersWith (u := (issued [0x01]).respond (.error .illegalCommand)) (by decide)
theorem witness_OneResponsePerCommand :
    (∃ t, exec .new State.reset = .next t) ∧ (∃ t, exec (.update []) State.reset = .next t) ∧
    (∃ t, exec .finish State.reset = .next t) ∧ (∃ t, exec (.digestHex []) State.reset = .next t) :=
  ⟨answers (by decide), answers (by decide), answers (by decide), answers (by decide)⟩
theorem witness_CommandFrame : ∃ t, exec .new (finishedState [0x03]) = .next t := answers (by decide)

/-- A finished session has the invariant between commands. -/
theorem witness_inv_finished (frames : List Byte) : (finishedState frames).Inv :=
  ⟨⟨rfl, fun h => by simp [finishedState] at h, fun _ => ⟨rfl, rfl, rfl⟩⟩,
    fun _ h => by simp [finishedState] at h⟩

/-- An open session of the stream "abc" has the invariant between commands. -/
theorem witness_inv_open : (openRegs 3 24 abcBlock).Inv :=
  ⟨by decide, fun _ => ⟨by decide, rfl, rfl⟩, fun h => by simp [openRegs, Regs.reset] at h⟩

theorem witness_DigestIsReadableWhileFinished :
    (finishedState []).regs.Inv ∧ (finishedState []).regs.fin = true ∧ (openRegs 3 24 abcBlock).fin = false :=
  ⟨(witness_inv_finished []).1, rfl, rfl⟩
theorem witness_DigestIsImmutable :
    (finishedState [0x03]).regs.fin = true ∧ (finishedState [0x03]).resetReq = false ∧
    decode (finishedState [0x03]).frames = .frame .finish [] ∧ ∃ t, step (finishedState [0x03]) = .next t :=
  ⟨rfl, rfl, by decide, answers (by decide)⟩
theorem witness_StepAnswersWhileHostKeepsDuties :
    (finishedState [0x02, 0, 0, 0, 0, 0, 0, 0, 0]).WholeFrame ∧
    (finishedState [0x02, 0, 0, 0, 0, 0, 0, 0, 0]).WithinCapacity := by
  have h : decode (finishedState [0x02, 0, 0, 0, 0, 0, 0, 0, 0]).frames = .frame (.update []) [] := by decide
  refine ⟨fun op => ?_, ?_⟩
  · rw [h]; simp
  · unfold State.WithinCapacity
    rw [h]
    exact .inl rfl
theorem witness_InstancesAreIndependent :
    0 < 2 ∧ platformStep 1 [State.reset, issued [0x01]] =
      some (.next [State.reset, ((issued []).withRegs Regs.reset.newSession).respond .ok]) :=
  ⟨by decide, rfl⟩
theorem witness_StepKeepsInv :
    (finishedState [0x01]).Inv ∧ ∃ t, step (finishedState [0x01]) = .next t :=
  ⟨witness_inv_finished _, answers (by decide)⟩

/-- The registers of an open session over the stream "abc". -/
theorem witness_holds_abc : (openRegs 3 24 abcBlock).Holds [0x61, 0x62, 0x63] := by
  refine ⟨rfl, rfl, by decide, by decide, rfl, rfl, ?_⟩
  decide

theorem witness_StepKeepsSession :
    (openRegs 3 24 abcBlock).SessionOf [0x61, 0x62, 0x63] ∧
    ∃ t, step ((issued [0x03]).withRegs (openRegs 3 24 abcBlock)) = .next t :=
  ⟨.inl witness_holds_abc, answers (by decide)⟩
theorem witness_ReachableStatesHoldASession : Reachable (State.reset.send [0x03]) := .send _ .reset
theorem witness_StaleBytesAreUnobservable :
    ((issued [0x03]).withRegs (openRegs 3 24 abcBlock)).Agrees
      ((issued [0x03]).withRegs (openRegs 3 24 (abcBlock.set 5 0xFF))) ∧
    ∃ t, step ((issued [0x03]).withRegs (openRegs 3 24 abcBlock)) = .next t := by
  refine ⟨⟨⟨rfl, rfl, rfl, rfl, rfl, rfl, ?_⟩, rfl, rfl, rfl⟩, answers (by decide)⟩
  decide

end Sys2Proof.Tests
end

section
/-! PROOFS. The primitives of `00_scope.md` section 4: rotation (R8) and big-endian byte order (R12). -/

namespace Sys2Proof.Machine

/-! ## Rotation (R8) -/

/-- Within its range of amounts, the rotation of R8 is the library's. -/
theorem rotl_eq_rotateLeft (x : Word) {n : Nat} (hn : n < 32) : rotl n x = x.rotateLeft n := by
  rw [BitVec.rotateLeft_def, Nat.mod_eq_of_lt hn, rotl]

/-- The rotation on natural numbers (R8). -/
theorem rotl_toNat (n : Nat) (x : Word) :
    (rotl n x).toNat = ((x.toNat <<< n) ||| (x.toNat >>> (32 - n))) % 2 ^ 32 := by
  have hright : x.toNat >>> (32 - n) < 2 ^ 32 := (Nat.shiftRight_le _ _).trans_lt x.isLt
  rw [rotl, BitVec.toNat_or, BitVec.toNat_shiftLeft, BitVec.toNat_ushiftRight, Nat.or_mod_two_pow,
    Nat.mod_eq_of_lt hright]

/-- Bit `i` goes to `(i + n) mod 32`: the `n` high bits of the word wrap around, the others move up by `n` (R8). -/
theorem rotl_getLsbD_add_mod (x : Word) {n i : Nat} (hn : n < 32) (hi : i < 32) :
    (rotl n x).getLsbD ((i + n) % 32) = x.getLsbD i := by
  rw [rotl_eq_rotateLeft x hn, BitVec.getLsbD_rotateLeft, Nat.mod_eq_of_lt hn]
  rcases Nat.lt_or_ge (i + n) 32 with hup | hwrap
  · have hpos : (i + n) % 32 = i + n := Nat.mod_eq_of_lt hup
    simp [hpos, hup]
  · have hpos : (i + n) % 32 = i + n - 32 := by omega
    have hlow : i + n - 32 < n := by omega
    have hback : 32 - n + (i + n - 32) = i := by omega
    simp [hpos, hlow, hback]

/-- Settles O24: the shift formula and the movement of each bit, one lemma each. -/
theorem rotationMovesBits : Obligations.RotationMovesBits :=
  fun n x _ hn => ⟨rotl_toNat n x, fun _ hi => rotl_getLsbD_add_mod x hn hi⟩

/-! ## Byte order (R12) -/

/-- `be` weighs each byte by the power of 256 its place gives it (R12). -/
theorem be_eq_sum (s : List Byte) :
    be s = ∑ i : Fin s.length, s[i].toNat * 256 ^ (s.length - 1 - i.val) := by
  induction s with
  | nil => simp
  | cons b s ih =>
    have hplace (i : Fin s.length) : s.length - (i.val + 1) = s.length - 1 - i.val := by omega
    rw [be_cons, ih]
    simp [Fin.sum_univ_succ, hplace]

/-- `be` of the low `n` bytes of a word of any width, most significant first, is its value modulo `256 ^ n`. -/
theorem be_ofFn_extractLsb' {w : Nat} (v : BitVec w) (n : Nat) :
    be (List.ofFn fun i : Fin n => v.extractLsb' (8 * (n - 1 - i.val)) 8) = v.toNat % 256 ^ n := by
  induction n with
  | zero => simp [Nat.mod_one]
  | succ n ih =>
    have htop : (v.extractLsb' (8 * n) 8).toNat = v.toNat / 256 ^ n % 256 := by
      rw [BitVec.extractLsb'_toNat, Nat.shiftRight_eq_div_pow, pow_mul]
      rfl
    have hplace (i : Fin n) : n - (i.val + 1) = n - 1 - i.val := by omega
    simp only [List.ofFn_succ, be_cons, List.length_ofFn, Nat.add_sub_cancel, Fin.val_zero, Fin.val_succ, Nat.sub_zero,
      hplace, htop, ih]
    rw [Nat.mod_pow_succ]
    ring

/-- `be32_bytes` at one byte: the most significant comes first (R12). -/
theorem be32Bytes_getElem (v : Word) (i : Fin 4) : (be32Bytes v)[i] = v.extractLsb' (8 * (3 - i.val)) 8 := by
  fin_cases i <;> rfl

/-- `be64_bytes` at one byte: the most significant comes first (R12). -/
theorem be64Bytes_getElem (v : DWord) (i : Fin 8) : (be64Bytes v)[i] = v.extractLsb' (8 * (7 - i.val)) 8 := by
  fin_cases i <;> rfl

/-- `be(be32_bytes(v)) = v` (R12). -/
@[simp] theorem be_be32Bytes (v : Word) : be (be32Bytes v).toList = v.toNat := by
  have hbytes : (be32Bytes v).toList = List.ofFn fun i : Fin 4 => v.extractLsb' (8 * (4 - 1 - i.val)) 8 := by
    simp [be32Bytes]
  rw [hbytes, be_ofFn_extractLsb']
  exact Nat.mod_eq_of_lt v.isLt

/-- `be(be64_bytes(v)) = v` (R12). -/
@[simp] theorem be_be64Bytes (v : DWord) : be (be64Bytes v).toList = v.toNat := by
  have hbytes : (be64Bytes v).toList = List.ofFn fun i : Fin 8 => v.extractLsb' (8 * (8 - 1 - i.val)) 8 := by
    simp [be64Bytes]
  rw [hbytes, be_ofFn_extractLsb']
  exact Nat.mod_eq_of_lt v.isLt

/-- Settles O25: the weighted sum by induction on the bytes, and both inverses from the bytes of a word of any width. -/
theorem byteOrderPrimitives : Obligations.ByteOrderPrimitives :=
  ⟨be_eq_sum, fun v => ⟨be_be32Bytes v, be32Bytes_getElem v⟩, fun v => ⟨be_be64Bytes v, be64Bytes_getElem v⟩⟩

end Sys2Proof.Machine
end

section
/-! PROOFS. The big-endian arrays of `20_memory.md`: `PARSE` (R42, R71), `SERIALIZE` (R44, R111) and `HEXRENDER`
(R45, R112). -/

namespace Sys2Proof.Machine

/-! ## Reading words from a block (R13, R71) -/

/-- The four bytes that a 4-byte `MemRead` reads (R13). -/
theorem take_four_drop_toList {n : Nat} (S : Vector Byte n) (i : Nat) (hi : i + 3 < n) :
    (S.toList.drop i).take 4 = [S[i], S[i + 1], S[i + 2], S[i + 3]] := by
  refine List.ext_getElem ?_ fun k hk hk' => ?_
  · simp; omega
  · have hk4 : k < 4 := hk'
    interval_cases k <;> simp

/-- A 4-byte `MemRead` weighs its bytes by descending powers of 256 (R13). -/
theorem memRead_four {n : Nat} (S : Vector Byte n) (i : Nat) (hi : i + 3 < n) :
    memRead S i 4 =
      S[i].toNat * 2 ^ 24 + S[i + 1].toNat * 2 ^ 16 + S[i + 2].toNat * 2 ^ 8 + S[i + 3].toNat := by
  rw [memRead, take_four_drop_toList S i hi]
  simp only [be_cons, be_nil, List.length_cons, List.length_nil]
  omega

/-- A parsed word holds the whole `MemRead` of its four bytes: nothing is cut off (R71). -/
theorem parse_getElem_toNat (block : Block) (i : Nat) (hi : i < 16) :
    (parse block)[i].toNat = memRead block (4 * i) 4 := by
  have hread : memRead block (4 * i) 4 < 2 ^ 32 := by
    rw [memRead, take_four_drop_toList block (4 * i) (by omega)]
    exact (be_lt _).trans_eq (by norm_num)
  rw [parse_getElem block i hi, BitVec.toNat_ofNat, Nat.mod_eq_of_lt hread]

/-- Settles O26: a parsed word is its 4-byte `MemRead`, and that read is the weighted sum. -/
theorem parseIsBigEndian : Obligations.ParseIsBigEndian := fun block i =>
  (parse_getElem_toNat block i i.isLt).trans (memRead_four block (4 * i.val) (by omega))

/-! ## Serialized words (R111) -/

/-- `SERIALIZE` at byte `k` of word `i`: the most significant byte of each word comes first (R111). -/
theorem serialize_getElem_word (h : StateWords) (i : Fin 5) (k : Fin 4) :
    (serialize h)[4 * i.val + k.val] = h[i].extractLsb' (8 * (3 - k.val)) 8 := by
  have hword : (4 * i.val + k.val) / 4 = i.val := by omega
  have hbyte : (4 * i.val + k.val) % 4 = k.val := by omega
  simp only [serialize_getElem, hword, hbyte]
  exact be32Bytes_getElem h[i] k

/-- The first byte of `be (b :: s)` is the quotient by the weight of its place, the rest the remainder (R12). -/
theorem be_cons_div_mod (b : Byte) (s : List Byte) :
    be (b :: s) / 256 ^ s.length = b.toNat ∧ be (b :: s) % 256 ^ s.length = be s := by
  refine (Nat.div_mod_unique (by positivity)).2 ⟨?_, be_lt s⟩
  rw [be_cons]
  ring

/-- `be` tells apart byte strings of one length: it is the positional notation to base 256 (R12). -/
theorem be_injective_of_length {s t : List Byte} (hlen : s.length = t.length) (hbe : be s = be t) : s = t := by
  induction s generalizing t with
  | nil => exact (List.eq_nil_of_length_eq_zero hlen.symm).symm
  | cons b s ih =>
    cases t with
    | nil => simp at hlen
    | cons b' t =>
      have htail : s.length = t.length := Nat.succ.inj hlen
      obtain ⟨hquot, hrem⟩ := be_cons_div_mod b s
      obtain ⟨hquot', hrem'⟩ := be_cons_div_mod b' t
      rw [hbe, htail] at hquot hrem
      have hhead : b = b' := BitVec.eq_of_toNat_eq (hquot.symm.trans hquot')
      rw [hhead, ih htail (hrem.symm.trans hrem')]

/-- The bytes of a parsed word are the four block bytes it was parsed from (R111). -/
theorem be32Bytes_parse_toList (block : Block) (i : Nat) (hi : i < 16) :
    (be32Bytes (parse block)[i]).toList = (block.toList.drop (4 * i)).take 4 := by
  refine be_injective_of_length ?_ ?_
  · rw [take_four_drop_toList block (4 * i) (by omega)]
    simp
  · rw [be_be32Bytes, parse_getElem_toNat block i hi, memRead]

/-- Byte `k` of parsed word `i` is block byte `4 * i + k` (R111). -/
theorem be32Bytes_parse_getElem (block : Block) (i k : Nat) (hi : i < 16) (hk : k < 4) :
    (be32Bytes (parse block)[i])[k] = block[4 * i + k] := by
  rw [← Vector.getElem_toList (by simpa using hk)]
  simp [be32Bytes_parse_toList block i hi]

/-- Serializing a vector whose words are the first five parsed words gives back the block's bytes (R111). -/
theorem serialize_parse_getElem (block : Block) {h : StateWords} (hh : ∀ i : Fin 5, h[i] = (parse block)[i.val])
    (j : Fin 20) : (serialize h)[j] = block[j.val] := by
  have hword : h[j.val / 4] = (parse block)[j.val / 4] := hh ⟨j.val / 4, by omega⟩
  have hplace : 4 * (j.val / 4) + j.val % 4 = j.val := Nat.div_add_mod _ _
  rw [Fin.getElem_fin, serialize_getElem]
  simp only [hword, be32Bytes_parse_getElem block (j.val / 4) (j.val % 4) (by omega) (by omega), hplace]

/-- The first five of sixteen words, written out. -/
theorem getElem_first_five (W : Vector Word 16) (i : Fin 5) :
    (#v[W[0], W[1], W[2], W[3], W[4]] : StateWords)[i] = W[i.val] := by
  fin_cases i <;> rfl

/-- Settles O37: each byte of a serialized word by its place, and the inverse of `PARSE` because `be` is injective on
four bytes. -/
theorem serializeIsBigEndian : Obligations.SerializeIsBigEndian :=
  ⟨fun h i => ⟨serialize_getElem_word h i 0, serialize_getElem_word h i 1, serialize_getElem_word h i 2,
      serialize_getElem_word h i 3⟩,
    fun block => serialize_parse_getElem block (getElem_first_five (parse block))⟩

/-! ## Hexadecimal characters (R112) -/

/-- The code of one hexadecimal digit: `0` to `9`, then `a` to `f` in lower case (R16). -/
theorem hexDigit_toNat (v : BitVec 4) :
    (hexDigit v).toNat = if v.toNat < 10 then 0x30 + v.toNat else 0x61 + (v.toNat - 10) := by
  decide +revert

/-- The upper four bits of a byte. -/
theorem highNibble_toNat (b : Byte) : (b.extractLsb' 4 4).toNat = b.toNat / 16 := by
  rw [BitVec.extractLsb'_toNat, Nat.shiftRight_eq_div_pow]
  omega

/-- The lower four bits of a byte. -/
theorem lowNibble_toNat (b : Byte) : (b.extractLsb' 0 4).toNat = b.toNat % 16 := by
  rw [BitVec.extractLsb'_toNat, Nat.shiftRight_zero]

/-- The even characters render the high nibbles (R112). -/
theorem hexRender_getElem_even (d : DigestBytes) (j : Fin 20) :
    (hexRender d)[2 * j.val] = hexDigit (d[j].extractLsb' 4 4) := by
  have hbyte : 2 * j.val / 2 = j.val := by omega
  simp [hexRender_getElem, hbyte]

/-- The odd characters render the low nibbles (R112). -/
theorem hexRender_getElem_odd (d : DigestBytes) (j : Fin 20) :
    (hexRender d)[2 * j.val + 1] = hexDigit (d[j].extractLsb' 0 4) := by
  have hbyte : (2 * j.val + 1) / 2 = j.val := by omega
  simp [hexRender_getElem, hbyte, Nat.add_mod]

/-- Settles O38: each character is the digit of its nibble, whose code the digit table gives. -/
theorem hexRenderIsLowercase : Obligations.HexRenderIsLowercase := fun d j => by
  rw [hexRender_getElem_even, hexRender_getElem_odd, hexDigit_toNat, hexDigit_toNat, highNibble_toNat, lowNibble_toNat]
  exact ⟨rfl, rfl⟩

end Sys2Proof.Machine
end

section
/-! PROOFS. Frames as the decoder reads them (`30_encoding.md` R57 to R59, R65): the opcode map, the payload of a
format `P` frame, and what a step does with a reserved opcode. -/

namespace Sys2Proof

open Sys2Proof.Machine

/-! ## The opcode map (R58) -/

/-- A byte that is none of the four assigned ones is no opcode (R58). -/
theorem opcodeOf_eq_none {op : Byte} (h1 : op ≠ 0x01) (h2 : op ≠ 0x02) (h3 : op ≠ 0x03) (h4 : op ≠ 0x04) :
    opcodeOf op = none := by
  rw [opcodeOf, if_neg h1, if_neg h2, if_neg h3, if_neg h4]

/-- The opcode byte of each command is read back as that command's opcode (R58). -/
@[simp] theorem opcodeOf_opcodeByte (o : Opcode) : opcodeOf (opcodeByte o) = some o := by
  cases o <;> rfl

/-- Settles O4: each assigned byte is the opcode byte of its command, and `opcodeOf_eq_none` covers the others. -/
theorem opcodeMap : Obligations.OpcodeMap := by
  refine ⟨fun op => ⟨?_, ?_, ?_, ?_, opcodeOf_eq_none⟩, rfl, rfl, rfl, rfl⟩
  · rintro rfl; exact opcodeOf_opcodeByte .new
  · rintro rfl; exact opcodeOf_opcodeByte .update
  · rintro rfl; exact opcodeOf_opcodeByte .finish
  · rintro rfl; exact opcodeOf_opcodeByte .digestHex

/-! ## `LEN` and the payload (R57) -/

/-- The weights of the eight bytes of `LEN` (R57). -/
theorem lenField_cons_eight (b0 b1 b2 b3 b4 b5 b6 b7 : Byte) (tail : List Byte) :
    lenField ([b0, b1, b2, b3, b4, b5, b6, b7] ++ tail) =
      b0.toNat * 2 ^ 56 + b1.toNat * 2 ^ 48 + b2.toNat * 2 ^ 40 + b3.toNat * 2 ^ 32 +
        b4.toNat * 2 ^ 24 + b5.toNat * 2 ^ 16 + b6.toNat * 2 ^ 8 + b7.toNat := by
  rw [lenField_append _ tail rfl]
  simp only [be_cons, be_nil, List.length_cons, List.length_nil]
  omega

/-- A payload as long as the eight bytes before it say is read as the chunk, whole and in order (R57, R65). -/
theorem decodePayload_append (op : Byte) (mk : List Byte → Instr) {len payload : List Byte} (rest : List Byte)
    (hlen : len.length = 8) (hpayload : payload.length = be len) :
    decodePayload op mk (len ++ payload ++ rest) = .frame (mk payload) rest := by
  have hfield : lenField (len ++ payload ++ rest) = payload.length := by
    rw [List.append_assoc, lenField_append len _ hlen, hpayload]
  have hdrop : (len ++ payload ++ rest).drop 8 = payload ++ rest := by
    rw [List.append_assoc, List.drop_left' hlen]
  obtain ⟨_, hshort⟩ | ⟨_, hframe⟩ := decodePayload_cases op mk (len ++ payload ++ rest)
  · simp only [hfield, List.length_append] at hshort
    omega
  · rw [hframe, hfield, hdrop, List.take_left, List.drop_left]

/-- After the opcode of `UPDATE` its `LEN` and payload are read (R58, R65). -/
theorem decode_update (tail : List Byte) : decode (0x02 :: tail) = decodePayload 0x02 .update tail := rfl

/-- After the opcode of `DIGEST_HEX` its `LEN` and payload are read (R58, R65). -/
theorem decode_digestHex (tail : List Byte) : decode (0x04 :: tail) = decodePayload 0x04 .digestHex tail := rfl

/-- A chunk of 2^61 bytes or more never fits the bit counter, not even from zero (R57, R94). -/
theorem fits_eq_false {n : Nat} (hn : 2 ^ 61 ≤ n) (c : Regs) : c.fits n = false := by
  rw [Bool.eq_false_iff, ne_eq, Regs.fits_iff, bitsOf]
  omega

/-- Settles O3: the weights of `LEN`, the payload of either format `P` command, and the capacity, one lemma each. -/
theorem lenFieldIsBigEndian : Obligations.LenFieldIsBigEndian := by
  refine ⟨lenField_cons_eight, fun len payload rest hlen hpayload => ⟨?_, ?_⟩, fun n c hn => fits_eq_false hn c⟩
  · rw [decode_update, decodePayload_append _ _ rest hlen hpayload]
  · rw [decode_digestHex, decodePayload_append _ _ rest hlen hpayload]

/-! ## Reserved opcodes (R59) -/

/-- A reserved opcode is a frame of its own, whatever stands after it (R59). -/
theorem decode_cons_reserved {op : Byte} (hop : opcodeOf op = none) (rest : List Byte) :
    decode (op :: rest) = .reserved op rest := by
  simp only [decode, hop]

/-- With no reset asked for, the step runs what the decoder finds in the stream (R65). -/
theorem step_of_not_resetReq {s : State} (hreset : s.resetReq = false) :
    step s = runDecoded (decode s.frames) s := by
  simp [step, runNext, hreset]

/-- A step at a reserved opcode takes that byte and rejects it (R59, R131). -/
theorem step_of_decode_reserved {s : State} {op : Byte} {rest : List Byte} (hreset : s.resetReq = false)
    (hdecode : decode s.frames = .reserved op rest) :
    step s = .next ((s.withFrames rest).respond (.error .illegalCommand)) := by
  rw [step_of_not_resetReq hreset, hdecode, runDecoded, reject]

/-- Settles O5: the byte is no opcode, so the decoder calls it reserved and the step rejects it. -/
theorem reservedOpcodeIsRejected : Obligations.ReservedOpcodeIsRejected := by
  intro s op rest hreset hframes h1 h2 h3 h4
  have hdecode : decode s.frames = .reserved op rest := by
    rw [hframes, decode_cons_reserved (opcodeOf_eq_none h1 h2 h3 h4)]
  exact ⟨hdecode, _, step_of_decode_reserved hreset hdecode, rfl, rfl, rfl, rfl⟩

end Sys2Proof
end

section
/-! PROOFS. What each command answers (`30_encoding.md` R61), and `DIGEST_HEX` as `NEW`, `UPDATE` and `FINISH` composed
(R63, R116). -/

namespace Sys2Proof.Machine

/-! ## Commands that complete -/

/-- `NEW` completes in every state (R90). -/
theorem exec_new (s : State) : exec .new s = .next ((s.withRegs s.regs.newSession).respond .ok) := rfl

/-- `UPDATE` completes while active, where the counter admits the chunk (R91, D10). -/
theorem exec_update_of_admits {s : State} {chunk : List Byte} (hfin : s.regs.fin = false)
    (hadmits : s.regs.admits chunk.length = true) :
    exec (.update chunk) s = .next ((s.withRegs (s.regs.update chunk)).respond .ok) := by
  obtain ⟨hf, _⟩ | ⟨_, _, he⟩ | ⟨_, ha, _⟩ := execUpdate_cases chunk s
  · simp [hfin] at hf
  · exact he
  · simp [hadmits] at ha

/-- `FINISH` completes while active (R113). -/
theorem exec_finish_of_active {s : State} (hfin : s.regs.fin = false) :
    exec .finish s = .next ((s.withRegs s.regs.finish).respond
      (.okDigest (serialize s.regs.finish.h) (hexRender (serialize s.regs.finish.h)))) := by
  obtain ⟨hf, _⟩ | ⟨_, he⟩ := execFinish_cases s
  · simp [hfin] at hf
  · rw [Regs.finish_h]
    exact he

/-- `DIGEST_HEX` completes in either phase, where a fresh counter admits the chunk (R116, D10). -/
theorem exec_digestHex_of_admits {s : State} {chunk : List Byte}
    (hadmits : s.regs.newSession.admits chunk.length = true) :
    exec (.digestHex chunk) s = .next ((s.withRegs (s.regs.digestHex chunk)).respond
      (.okHex (hexRender (serialize (s.regs.digestHex chunk).h)))) := by
  obtain ⟨_, he⟩ | ⟨ha, _⟩ := execDigestHex_cases chunk s
  · exact he
  · simp [hadmits] at ha

/-! ## The output registers after a digest (R113, R116) -/

/-- `FINISH` leaves in `DIGEST` the serialization of the `H` it leaves (R111). -/
theorem Regs.finish_digest_eq (c : Regs) : c.finish.digest = some (serialize c.finish.h) := by
  rw [Regs.finish_digest, Regs.finish_h]

/-- `FINISH` leaves in `HEX` the rendering of the `H` it leaves (R112). -/
theorem Regs.finish_hex_eq (c : Regs) : c.finish.hex = some (hexRender (serialize c.finish.h)) := by
  rw [Regs.finish_hex, Regs.finish_h]

/-! ## `DIGEST_HEX` composed (R63, R116) -/

/-- Settles O39: within capacity all four commands complete, and the registers of `DIGEST_HEX` are by definition those
of the three in a row; the responses differ because the three parts each give their own. -/
theorem digestHexIsComposition : Obligations.DigestHexIsComposition := by
  intro s chunk hchunk
  have hadmits : s.regs.newSession.admits chunk.length = true :=
    Regs.admits_of_fits ((Regs.newSession_fits _).2 hchunk)
  refine ⟨_, _, _, _, _, _, exec_new s, exec_update_of_admits rfl hadmits, exec_finish_of_active ?_,
    exec_digestHex_of_admits hadmits, rfl, Regs.finish_fin _, ?_, rfl, Regs.finish_hex_eq _, Regs.finish_digest_eq _⟩
  · simp
  · simp [Regs.digestHex]

/-! ## One response per command (R61) -/

/-- `UPDATE` answers `OK`, or `InvalidState` while finished (R61, R126). -/
theorem exec_update_responses {s t : State} {chunk : List Byte} (h : exec (.update chunk) s = .next t) :
    t.responses = s.responses ++ [if s.regs.fin then .error .invalidState else .ok] := by
  rw [exec] at h
  obtain ⟨hf, he⟩ | ⟨hf, _, he⟩ | ⟨_, _, he⟩ := execUpdate_cases chunk s <;> rw [he] at h <;> cases h <;> simp [hf]

/-- `FINISH` while finished answers `InvalidState` (R61, R127). -/
theorem exec_finish_responses_of_finished {s t : State} (hfin : s.regs.fin = true) (h : exec .finish s = .next t) :
    t.responses = s.responses ++ [.error .invalidState] := by
  obtain ⟨_, he⟩ | ⟨hf, _⟩ := execFinish_cases s
  · rw [exec, he] at h
    cases h
    rfl
  · simp [hfin] at hf

/-- `FINISH` while active answers the digest and the string that it leaves in `DIGEST` and `HEX` (R61, R113). -/
theorem exec_finish_responses_of_active {s t : State} (hfin : s.regs.fin = false) (h : exec .finish s = .next t) :
    ∃ d x, t.responses = s.responses ++ [.okDigest d x] ∧ t.regs.digest = some d ∧ t.regs.hex = some x := by
  rw [exec_finish_of_active hfin] at h
  cases h
  exact ⟨_, _, rfl, Regs.finish_digest_eq _, Regs.finish_hex_eq _⟩

/-- `DIGEST_HEX` answers the string that it leaves in `HEX` (R61, R116). -/
theorem exec_digestHex_responses {s t : State} {chunk : List Byte} (h : exec (.digestHex chunk) s = .next t) :
    ∃ x, t.responses = s.responses ++ [.okHex x] ∧ t.regs.hex = some x := by
  rw [exec] at h
  obtain ⟨_, he⟩ | ⟨_, he⟩ := execDigestHex_cases chunk s <;> rw [he] at h <;> cases h
  exact ⟨_, rfl, Regs.finish_hex_eq _⟩

/-- The bytes of `OK_DIGEST` are the status, 20 digest bytes and 40 characters (R61). -/
theorem responseBytes_okDigest_length (d : DigestBytes) (x : HexChars) :
    (responseBytes (.okDigest d x)).length = 61 := by
  simp [responseBytes]

/-- The bytes of `OK_HEX` are the status and 40 characters (R61). -/
theorem responseBytes_okHex_length (x : HexChars) : (responseBytes (.okHex x)).length = 41 := by
  simp [responseBytes]

/-- Settles O46: one lemma per command gives the response it adds, and the layouts are those of `responseBytes`. -/
theorem oneResponsePerCommand : Obligations.OneResponsePerCommand := by
  refine ⟨fun i s t h => ?_, fun d x => ⟨rfl, rfl, responseBytes_okDigest_length d x, rfl,
    responseBytes_okHex_length x, rfl, rfl⟩⟩
  cases i with
  | new =>
    cases h
    exact ⟨_, rfl, rfl⟩
  | update chunk => exact ⟨_, exec_update_responses h, rfl⟩
  | finish =>
    cases hfin : s.regs.fin with
    | true => exact ⟨_, exec_finish_responses_of_finished hfin h, rfl⟩
    | false =>
      obtain ⟨d, x, hresponses, hdigest, hhex⟩ := exec_finish_responses_of_active hfin h
      exact ⟨_, hresponses, d, x, rfl, hdigest, hhex⟩
  | digestHex chunk =>
    obtain ⟨x, hresponses, hhex⟩ := exec_digestHex_responses h
    exact ⟨_, hresponses, x, rfl, hhex⟩

end Sys2Proof.Machine
end

section
/-! PROOFS. The compression core (`40_compression.md`): the schedule's recurrence (R72), the rounds in order (R74), the
four round functions (R75 to R78) and the add-back (R79). -/

namespace Sys2Proof.Machine

/-! ## Loops over ascending indices

`SCHED` and the rounds are both folds over `List.finRange`; the state after `i` turns is the fold over its first `i`
indices. -/

/-- One more turn of an ascending loop: turn `i` runs on what the turns before it left. -/
theorem foldl_take_finRange_succ {α : Type} {n : Nat} (f : α → Fin n → α) (init : α) (i : Fin n) :
    ((List.finRange n).take (i.val + 1)).foldl f init = f (((List.finRange n).take i.val).foldl f init) i := by
  rw [List.take_succ_eq_append_getElem (by simp), List.foldl_append]
  simp

/-- All `n` turns of an ascending loop. -/
theorem foldl_take_finRange_all {α : Type} {n : Nat} (f : α → Fin n → α) (init : α) :
    ((List.finRange n).take n).foldl f init = (List.finRange n).foldl f init := by
  rw [List.take_of_length_le (by simp)]

/-! ## The schedule (R72) -/

/-- The words of `W` below `16 + n` are settled: the parsed words, then `n` words by the recurrence of R72. -/
structure ScheduledUpTo (w : Vector Word 16) (n : Nat) (W : Schedule) : Prop where
  parsed (t : Nat) (ht : t < 16) : W[t] = w[t]
  recurrence (t : Nat) (h16 : 16 ≤ t) (hn : t < 16 + n) (h80 : t < 80) :
    W[t] = rotl 1 (W[t - 3] ^^^ W[t - 8] ^^^ W[t - 14] ^^^ W[t - 16])

/-- Before the first turn the parsed words stand in `W[0..15]`, whatever stands after them (R71, R72). -/
theorem scheduledUpTo_zero (start : Vector Word 64) (w : Vector Word 16) : ScheduledUpTo w 0 (w ++ start) where
  parsed t ht := Vector.getElem_append_left ht
  recurrence t h16 hn _ := by omega

/-- A turn of `SCHED` leaves the words below its own (R72). -/
theorem schedStep_getElem_of_lt (W : Schedule) (i : Fin 64) {t : Nat} (ht : t < i.val + 16) :
    (schedStep W i)[t] = W[t] := by
  rw [schedStep_getElem, if_neg (by omega)]

/-- Each turn of `SCHED` settles one more word: it reads settled words only, and leaves them (R72, R82). -/
theorem ScheduledUpTo.step {w : Vector Word 16} {W : Schedule} {i : Fin 64} (h : ScheduledUpTo w i.val W) :
    ScheduledUpTo w (i.val + 1) (schedStep W i) where
  parsed t ht := by rw [schedStep_getElem_of_lt W i (by omega), h.parsed t ht]
  recurrence t h16 hn h80 := by
    rw [schedStep_getElem_of_lt W i (t := t - 3) (by omega), schedStep_getElem_of_lt W i (t := t - 8) (by omega),
      schedStep_getElem_of_lt W i (t := t - 14) (by omega), schedStep_getElem_of_lt W i (t := t - 16) (by omega)]
    obtain hold | rfl : t < i.val + 16 ∨ t = i.val + 16 := by omega
    · rw [schedStep_getElem_of_lt W i hold, h.recurrence t h16 (by omega) h80]
    · rw [schedStep_getElem, if_pos rfl]
      rfl

/-- After `n` turns of `SCHED`, `n` words are settled (R72). -/
theorem scheduledUpTo_take (start : Vector Word 64) (w : Vector Word 16) :
    ∀ n ≤ 64, ScheduledUpTo w n (((List.finRange 64).take n).foldl schedStep (w ++ start))
  | 0, _ => scheduledUpTo_zero start w
  | n + 1, hn => by
    rw [foldl_take_finRange_succ schedStep (w ++ start) ⟨n, hn⟩]
    exact (scheduledUpTo_take start w n (by omega)).step (i := ⟨n, hn⟩)

/-- `SCHED` settles all 80 words (R72). -/
theorem schedFrom_scheduled (start : Vector Word 64) (w : Vector Word 16) : ScheduledUpTo w 64 (schedFrom start w) := by
  rw [schedFrom, ← foldl_take_finRange_all]
  exact scheduledUpTo_take start w 64 le_rfl

/-- The recurrence fixes every word from the 16 parsed ones (R72). -/
theorem ScheduledUpTo.unique {w : Vector Word 16} {V W : Schedule} (hV : ScheduledUpTo w 64 V)
    (hW : ScheduledUpTo w 64 W) : V = W := by
  refine Vector.ext fun t => ?_
  induction t using Nat.strong_induction_on with
  | _ t ih =>
    intro h80
    rcases Nat.lt_or_ge t 16 with hparsed | h16
    · rw [hV.parsed t hparsed, hW.parsed t hparsed]
    · rw [hV.recurrence t h16 h80 h80, hW.recurrence t h16 h80 h80, ih (t - 3) (by omega), ih (t - 8) (by omega),
        ih (t - 14) (by omega), ih (t - 16) (by omega)]

/-- What stands in `W[16..79]` at the start is never read (R82). -/
theorem sched_ignores_start (start : Vector Word 64) (w : Vector Word 16) : schedFrom start w = sched w :=
  (schedFrom_scheduled start w).unique (schedFrom_scheduled _ w)

/-- Settles O27: the invariant `ScheduledUpTo` after all 64 turns, and its uniqueness for the start. -/
theorem scheduleRecurrence : Obligations.ScheduleRecurrence := fun start w =>
  have hsched := schedFrom_scheduled start w
  ⟨fun t => hsched.parsed t t.isLt, fun t h16 h80 => hsched.recurrence t h16 h80 h80, sched_ignores_start start w⟩

/-! ## The kind of a round (R74) -/

section
variable {t : Fin 80}

theorem kindOf_of_lt_20 (h : t.val < 20) : kindOf t = .kind0 := if_pos h

theorem kindOf_of_lt_40 (h20 : 20 ≤ t.val) (h40 : t.val < 40) : kindOf t = .kind1 := by
  rw [kindOf, if_neg (by omega), if_pos h40]

theorem kindOf_of_lt_60 (h40 : 40 ≤ t.val) (h60 : t.val < 60) : kindOf t = .kind2 := by
  rw [kindOf, if_neg (by omega), if_neg (by omega), if_pos h60]

theorem kindOf_of_ge_60 (h60 : 60 ≤ t.val) : kindOf t = .kind3 := by
  rw [kindOf, if_neg (by omega), if_neg (by omega), if_neg (by omega)]

end

/-! ## The round functions, bit by bit (R75 to R78) -/

/-- Kind 0 is a choice: a bit of `b` selects the bit of `c` or the bit of `d` (R75). -/
theorem roundF_kind0_getLsbD (b c d : Word) (i : Nat) :
    (roundF .kind0 b c d).getLsbD i = if b.getLsbD i then c.getLsbD i else d.getLsbD i := by
  rcases Nat.lt_or_ge i 32 with hi | hi
  · simp only [roundF, BitVec.getLsbD_or, BitVec.getLsbD_and, BitVec.getLsbD_not, hi]
    cases b.getLsbD i <;> simp
  · simp [roundF, BitVec.getLsbD_of_ge _ i hi]

/-- Kind 1 is a parity (R76). -/
theorem roundF_kind1_getLsbD (b c d : Word) (i : Nat) :
    (roundF .kind1 b c d).getLsbD i = (b.getLsbD i ^^ (c.getLsbD i ^^ d.getLsbD i)) := by
  simp [roundF]

/-- Of three bits, some two are set exactly where at least two are. -/
theorem majority_eq_two_le_count (x y z : Bool) :
    ((x && y) || (x && z) || (y && z)) = decide (2 ≤ x.toNat + y.toNat + z.toNat) := by
  decide +revert

/-- Kind 2 is a majority (R77). -/
theorem roundF_kind2_getLsbD (b c d : Word) (i : Nat) :
    (roundF .kind2 b c d).getLsbD i =
      decide (2 ≤ (b.getLsbD i).toNat + (c.getLsbD i).toNat + (d.getLsbD i).toNat) := by
  rw [← majority_eq_two_le_count]
  simp [roundF]

/-- Settles O29: the bits of each function, then the ranges of `t`; the formulas and constants are the definitions. -/
theorem roundFunctionsBitwise : Obligations.RoundFunctionsBitwise :=
  ⟨fun b c d => ⟨roundF_kind0_getLsbD b c d, rfl, rfl, rfl, rfl, roundF_kind1_getLsbD b c d,
      roundF_kind2_getLsbD b c d, rfl⟩,
    fun _ => ⟨kindOf_of_lt_20, kindOf_of_lt_40, kindOf_of_lt_60, kindOf_of_ge_60⟩, rfl, rfl, rfl, rfl⟩

/-! ## One round, and 80 in order (R74) -/

/-- The round once its kind is known: the five-term sum in front, the other variables shifted (R74). -/
theorem roundStep_of_kind {t : Fin 80} {kind : RoundKind} (hkind : kindOf t = kind) (w a b c d e : Word) :
    roundStep t w ⟨a, b, c, d, e⟩ = ⟨rotl 5 a + roundF kind b c d + e + w + roundK kind, a, rotl 30 b, c, d⟩ := by
  rw [roundStep, roundTemp, hkind]

/-- The working variables after the first `n` rounds (R74). -/
def roundsUpTo (W : Schedule) (r : Work) (n : Nat) : Work :=
  ((List.finRange 80).take n).foldl (fun r t => roundStep t W[t] r) r

@[simp] theorem roundsUpTo_zero (W : Schedule) (r : Work) : roundsUpTo W r 0 = r := rfl

theorem roundsUpTo_succ (W : Schedule) (r : Work) (t : Fin 80) :
    roundsUpTo W r (t.val + 1) = roundStep t W[t] (roundsUpTo W r t.val) :=
  foldl_take_finRange_succ _ r t

theorem roundsUpTo_80 (W : Schedule) (r : Work) : roundsUpTo W r 80 = rounds W r :=
  foldl_take_finRange_all _ r

/-- Settles O28: the partial rounds are the sequence, and in each range of `t` the kind gives the function and the
constant. -/
theorem roundStepRule : Obligations.RoundStepRule := by
  refine ⟨fun W r => ⟨roundsUpTo W r, roundsUpTo_zero W r, roundsUpTo_succ W r, roundsUpTo_80 W r⟩, ?_⟩
  rintro t w a b c d e f k (⟨h20, rfl, rfl⟩ | ⟨h20, h40, rfl, rfl⟩ | ⟨h40, h60, rfl, rfl⟩ | ⟨h60, rfl, rfl⟩)
  · exact roundStep_of_kind (kindOf_of_lt_20 h20) w a b c d e
  · exact roundStep_of_kind (kindOf_of_lt_40 h20 h40) w a b c d e
  · exact roundStep_of_kind (kindOf_of_lt_60 h40 h60) w a b c d e
  · exact roundStep_of_kind (kindOf_of_ge_60 h60) w a b c d e

/-! ## The add-back (R73, R79) -/

/-- The compression function is the add-back of the rounds that start from its own state (R73, R79). -/
theorem compressFn_eq_addBack (h : StateWords) (block : Block) :
    compressFn h block = addBack h (rounds (sched (parse block)) ⟨h[0], h[1], h[2], h[3], h[4]⟩) := rfl

/-- Settles O31: `COMPRESS` writes the add-back into `H`, and `Regs.compress` gives the six registers it leaves. -/
theorem compressAddsBack : Obligations.CompressAddsBack := fun c block =>
  ⟨by rw [Regs.compress_h, compressFn_eq_addBack, addBack], c.compress_buf block, c.compress_fill block,
    c.compress_bitcnt block, c.compress_fin block, c.compress_digest block, c.compress_hex block⟩

end Sys2Proof.Machine
end

section
/-! PROOFS. The streaming unit (`41_streaming.md`): `NEW` (R90), what `UPDATE` does to the counter (R94), the empty
`UPDATE` (R95), and chunking invariance (R96). -/

namespace Sys2Proof.Machine

/-! ## `NEW` (R90) -/

/-- Settles O13: the registers of `Regs.newSession`, one by one; `BUF` is not among those it writes. -/
theorem newStartsFreshSession : Obligations.NewStartsFreshSession :=
  ⟨rfl, fun s => ⟨_, exec_new s, s.regs.newSession_h, s.regs.newSession_fill, s.regs.newSession_bitcnt,
    s.regs.newSession_fin, s.regs.newSession_digest, s.regs.newSession_hex, s.regs.newSession_buf, rfl⟩⟩

/-! ## Accepted and rejected `UPDATE`s (R91, R126) -/

/-- `UPDATE` completes while active and within the counter's capacity, whatever `BITCNT_OVERFLOW` is (R91, D10). -/
theorem exec_update_of_fits {s : State} {chunk : List Byte} (hfin : s.regs.fin = false)
    (hfits : s.regs.bitcnt.toNat + 8 * chunk.length < 2 ^ 64) :
    exec (.update chunk) s = .next ((s.withRegs (s.regs.update chunk)).respond .ok) :=
  exec_update_of_admits hfin (Regs.admits_of_fits (Regs.fits_iff.2 hfits))

/-- `UPDATE` while finished is rejected, and its chunk is not looked at (R126). -/
theorem exec_update_of_finished {s : State} (hfin : s.regs.fin = true) (chunk : List Byte) :
    exec (.update chunk) s = .next (s.respond (.error .invalidState)) := by
  obtain ⟨_, he⟩ | ⟨hf, _⟩ | ⟨hf, _⟩ := execUpdate_cases chunk s
  · exact he
  · simp [hfin] at hf
  · simp [hfin] at hf

/-! ## The empty `UPDATE` (R95) -/

/-- An empty chunk leaves nothing for any of parts A, B and C, and adds nothing to the counter (R95). -/
@[simp] theorem Regs.update_nil (c : Regs) : c.update [] = c := by
  have htop : c.topUp 0 = 0 := by simp [Regs.topUp]
  have hstrides : c.strides 0 = 0 := by simp [Regs.strides]
  have hbits : c.bitcnt + BitVec.ofNat 64 (bitsOf 0) = c.bitcnt := BitVec.add_zero _
  simp only [Regs.update, List.length_nil, htop, hstrides, hbits, List.take_nil, List.drop_nil, Regs.absorbAll_nil,
    hashBlocks_zero, Regs.withH_bitcnt]
  rfl

/-- Settles O18: the empty chunk fits every counter and changes no register. -/
theorem emptyUpdate : Obligations.EmptyUpdate := by
  refine fun s => ⟨fun hfin => ?_, fun hfin => exec_update_of_finished hfin []⟩
  have hfits : s.regs.bitcnt.toNat + 8 * ([] : List Byte).length < 2 ^ 64 := s.regs.bitcnt.isLt
  rw [exec_update_of_fits hfin hfits, Regs.update_nil]
  rfl

/-! ## The counter (R94) -/

/-- The counter after an `UPDATE` that fits it, as a number: nothing is reduced (R94). -/
theorem Regs.update_bitcnt_toNat {c : Regs} {chunk : List Byte} (hfits : c.bitcnt.toNat + 8 * chunk.length < 2 ^ 64) :
    (c.update chunk).bitcnt.toNat = c.bitcnt.toNat + 8 * chunk.length := by
  rw [Regs.update_bitcnt, bitsOf, BitVec.toNat_add, BitVec.toNat_ofNat, Nat.add_mod_mod, Nat.mod_eq_of_lt hfits]

@[simp] theorem Regs.updates_nil (c : Regs) : c.updates [] = c := rfl
@[simp] theorem Regs.updates_cons (c : Regs) (chunk : List Byte) (chunks : List (List Byte)) :
    c.updates (chunk :: chunks) = (c.update chunk).updates chunks := rfl

/-- The counter after several `UPDATE`s grows by the bits of the whole stream, modulo 2^64 (R94, D10). -/
theorem Regs.updates_bitcnt (c : Regs) (chunks : List (List Byte)) :
    (c.updates chunks).bitcnt = c.bitcnt + BitVec.ofNat 64 (bitsOf chunks.flatten.length) := by
  induction chunks generalizing c with
  | nil => exact (BitVec.add_zero _).symm
  | cons chunk chunks ih =>
    rw [Regs.updates_cons, ih, Regs.update_bitcnt, List.flatten_cons, List.length_append, bitsOf, bitsOf, bitsOf,
      Nat.mul_add, BitVec.ofNat_add, BitVec.add_assoc]

/-- The counter of a session opened by `NEW` is 8 times the stream's length, within capacity (R94). -/
theorem Regs.newSession_updates_bitcnt_toNat (c : Regs) {chunks : List (List Byte)}
    (hlen : chunks.flatten.length ≤ 2 ^ 61 - 1) :
    (c.newSession.updates chunks).bitcnt.toNat = 8 * chunks.flatten.length := by
  have hbits : 8 * chunks.flatten.length < 2 ^ 64 := by omega
  rw [Regs.updates_bitcnt, Regs.newSession_bitcnt, bitsOf, BitVec.ofNat_eq_ofNat, BitVec.zero_add, BitVec.toNat_ofNat,
    Nat.mod_eq_of_lt hbits]

/-- Settles O17: one accepted `UPDATE`, a rejected one, and the total of a session. -/
theorem updateCountsMessageBits : Obligations.UpdateCountsMessageBits := by
  refine ⟨fun s chunk hfin hfits => ⟨_, exec_update_of_fits hfin hfits, Regs.update_bitcnt_toNat hfits⟩,
    fun s chunk hfin => ⟨_, exec_update_of_finished hfin chunk, rfl⟩, fun c chunks hlen => ?_⟩
  rw [Regs.newSession_updates_bitcnt_toNat c hlen, List.length_flatten]

/-! ## `UPDATE` byte by byte (R93)

`UPDATE` strides over whole blocks where `ABSORB` of each byte would store them first; the two differ in stale bytes
alone. -/

/-- The counter plays no part in `ABSORB` (R92). -/
theorem Regs.absorb_withBitcnt (c : Regs) (v : DWord) (x : Byte) :
    (c.withBitcnt v).absorb x = (c.absorb x).withBitcnt v := by
  refine Regs.ext_fields ?_ (by simp) (Fin.ext ?_) (by simp) (by simp) (by simp) (by simp)
  · rw [Regs.withBitcnt_h, Regs.absorb_h, Regs.absorb_h]
    rfl
  · simp [Regs.absorb_fill]

/-- The counter plays no part in absorbing bytes (R92). -/
theorem Regs.absorbAll_withBitcnt (c : Regs) (v : DWord) (bytes : List Byte) :
    (c.withBitcnt v).absorbAll bytes = (c.absorbAll bytes).withBitcnt v := by
  induction bytes generalizing c with
  | nil => rfl
  | cons x bytes ih => rw [Regs.absorbAll_cons, Regs.absorb_withBitcnt, ih, Regs.absorbAll_cons]

/-- Agreement is kept when both counters take the same value. -/
theorem Regs.Agrees.withBitcnt {c d : Regs} (h : c.Agrees d) (v : DWord) :
    (c.withBitcnt v).Agrees (d.withBitcnt v) := by
  obtain ⟨hh, hf, _, hn, hd, hx, hb⟩ := h
  exact ⟨hh, hf, rfl, hn, hd, hx, hb⟩

/-- Whole blocks are taken straight from the payload only where part A has left the buffer empty (R91). -/
theorem Regs.strides_eq_zero_or_topUp_fills (c : Regs) (n : Nat) :
    c.strides n = 0 ∨ (c.fill.val + c.topUp n) % 64 = 0 := by
  unfold Regs.strides Regs.topUp
  split <;> omega

/-- Parts A and B of `UPDATE` take no more bytes than the chunk has (R91). -/
theorem Regs.topUp_add_strides_le (c : Regs) (n : Nat) : c.topUp n + 64 * c.strides n ≤ n := by
  unfold Regs.strides Regs.topUp
  split <;> omega

/-- `UPDATE` as its parts (R91): the bytes of A are absorbed, those of B hashed as blocks, those of C absorbed. -/
theorem Regs.update_eq (c : Regs) (chunk : List Byte) :
    c.update chunk =
      (((c.absorbAll (chunk.take (c.topUp chunk.length))).withH
        (hashBlocks (c.strides chunk.length) (c.absorbAll (chunk.take (c.topUp chunk.length))).h
          (chunk.drop (c.topUp chunk.length)))).absorbAll
        (chunk.drop (c.topUp chunk.length + 64 * c.strides chunk.length))).withBitcnt
        (c.bitcnt + BitVec.ofNat 64 (bitsOf chunk.length)) := by
  simp [Regs.update]

/-- Part B of `UPDATE` agrees with absorbing the same bytes: there are none, or the buffer is empty (R91, R93). -/
theorem Regs.strides_agrees_absorbAll {c : Regs} {q : Nat} {bytes : List Byte} (hempty : q = 0 ∨ c.fill.val = 0)
    (hlen : 64 * q ≤ bytes.length) :
    (c.withH (hashBlocks q c.h bytes)).Agrees (c.absorbAll (bytes.take (64 * q))) := by
  obtain rfl | hfill := hempty
  · exact Regs.Agrees.refl c
  · rw [← hashBlocks_take q c.h bytes hlen]
    exact (c.absorbAll_blocks_agrees q _ hfill (List.length_take_of_le hlen)).symm

/-- `UPDATE` agrees with `ABSORB` of each byte, but for the counter (R93). -/
theorem Regs.update_agrees_absorbAll (c : Regs) (chunk : List Byte) :
    (c.update chunk).Agrees ((c.absorbAll chunk).withBitcnt (c.update chunk).bitcnt) := by
  have hle := c.topUp_add_strides_le chunk.length
  have hparts : chunk = chunk.take (c.topUp chunk.length) ++
      ((chunk.drop (c.topUp chunk.length)).take (64 * c.strides chunk.length) ++
        chunk.drop (c.topUp chunk.length + 64 * c.strides chunk.length)) := by
    rw [← List.drop_drop, List.take_append_drop, List.take_append_drop]
  have hempty : c.strides chunk.length = 0 ∨ (c.absorbAll (chunk.take (c.topUp chunk.length))).fill.val = 0 := by
    rw [Regs.absorbAll_fill, List.length_take_of_le (by omega)]
    exact c.strides_eq_zero_or_topUp_fills chunk.length
  have hstrides := Regs.strides_agrees_absorbAll (bytes := chunk.drop (c.topUp chunk.length)) hempty
    (by rw [List.length_drop]; omega)
  rw [Regs.update_bitcnt, Regs.update_eq, congrArg c.absorbAll hparts, Regs.absorbAll_append, Regs.absorbAll_append]
  exact (hstrides.absorbAll _).withBitcnt _

/-- Several `UPDATE`s agree with `ABSORB` of each byte of their stream, but for the counter (R46, R93). -/
theorem Regs.updates_agrees_absorbAll (c : Regs) (chunks : List (List Byte)) :
    (c.updates chunks).Agrees ((c.absorbAll chunks.flatten).withBitcnt (c.updates chunks).bitcnt) := by
  induction chunks generalizing c with
  | nil => exact Regs.Agrees.refl c
  | cons chunk chunks ih =>
    have hrest := (c.update_agrees_absorbAll chunk).absorbAll chunks.flatten
    rw [Regs.absorbAll_withBitcnt, ← Regs.absorbAll_append] at hrest
    exact (ih (c.update chunk)).trans (hrest.withBitcnt _)

/-- Several `UPDATE`s leave what their stream leaves, however it is cut into chunks (R96). -/
theorem Regs.updates_agrees_of_flatten_eq (c : Regs) {parts others : List (List Byte)}
    (hstream : parts.flatten = others.flatten) : (c.updates parts).Agrees (c.updates others) := by
  have hparts := c.updates_agrees_absorbAll parts
  rw [Regs.updates_bitcnt, hstream, ← Regs.updates_bitcnt] at hparts
  exact hparts.trans (c.updates_agrees_absorbAll others).symm

/-! ## `FINISH` reads no stale byte (R29, R105) -/

/-- After any byte is stored at `FILL`, the bytes up to and including it agree. -/
theorem Regs.Agrees.getElem_set_fill {c d : Regs} (h : c.Agrees d) (x : Byte) {j : Nat} (hj : j < 64)
    (hle : j < c.fill.val + 1) : (c.buf.set c.fill.val x)[j] = (d.buf.set d.fill.val x)[j] := by
  obtain ⟨_, hf, _, _, _, _, hb⟩ := h
  rw [Vector.getElem_set, Vector.getElem_set, ← hf]
  split
  · rfl
  · exact hb ⟨j, hj⟩ (Fin.lt_def.2 (by show j < c.fill.val; omega))

/-- After any byte is stored at `FILL`, a zero fill of the stale bytes behind it makes the arrays agree to its end. -/
theorem Regs.Agrees.getElem_zeroFill_set_fill {c d : Regs} (h : c.Agrees d) (x : Byte) {hi j : Nat} (hj : j < 64)
    (hhi : j < hi) :
    (zeroFill (c.buf.set c.fill.val x) (c.fill.val + 1) hi)[j] =
      (zeroFill (d.buf.set d.fill.val x) (d.fill.val + 1) hi)[j] := by
  have hmarked := h.getElem_set_fill x hj
  obtain ⟨_, hf, _⟩ := h
  rw [zeroFill_getElem, zeroFill_getElem]
  rcases Nat.lt_or_ge j (c.fill.val + 1) with hmeant | hstale
  · rw [if_neg (by omega), if_neg (by omega), hmarked hmeant]
  · rw [if_pos (by omega), if_pos (by omega)]

/-- Steps 1 to 3 of `PAD` write over every stale byte below 56, and compress none (R106 to R108). -/
theorem Regs.Agrees.padTo56 {c d : Regs} (h : c.Agrees d) :
    c.padTo56.h = d.padTo56.h ∧ ∀ (j : Nat) (hj : j < 64), j < 56 → c.padTo56.buf[j] = d.padTo56.buf[j] := by
  have ⟨hh, hf, _⟩ := h
  rcases Nat.lt_or_ge c.fill.val 56 with hshort | hlong
  · obtain ⟨hch, hcb⟩ := c.padTo56_short hshort
    obtain ⟨hdh, hdb⟩ := d.padTo56_short (hf ▸ hshort)
    refine ⟨by rw [hch, hdh, hh], fun j hj h56 => ?_⟩
    simpa only [hcb, hdb] using h.getElem_zeroFill_set_fill padByte hj h56
  · obtain ⟨hch, hcb⟩ := c.padTo56_long hlong
    obtain ⟨hdh, hdb⟩ := d.padTo56_long (hf ▸ hlong)
    refine ⟨?_, fun j hj _ => (hcb j hj).trans (hdb j hj).symm⟩
    rw [hch, hdh, ← hh]
    exact congrArg (compressFn c.h) (Vector.ext fun j hj => h.getElem_zeroFill_set_fill padByte hj hj)

/-- `PAD` leaves the same registers, stale bytes or not: it writes every byte that it compresses (R105). -/
theorem Regs.Agrees.pad_eq {c d : Regs} (h : c.Agrees d) : c.pad = d.pad := by
  obtain ⟨hpadh, hpadb⟩ := h.padTo56
  obtain ⟨_, _, hc, hn, hd, hx, _⟩ := h
  have hbuf : c.pad.buf = d.pad.buf := by
    rw [Regs.pad_buf, Regs.pad_buf, hc]
    refine Vector.ext fun j hj => ?_
    rw [memWrite_getElem, memWrite_getElem]
    split
    · rfl
    · exact hpadb j hj (by omega)
  refine Regs.ext_fields ?_ hbuf ?_ ?_ ?_ ?_ ?_
  · rw [Regs.pad_h, Regs.pad_h, hpadh, hbuf]
  · rw [Regs.pad_fill, Regs.pad_fill]
  · rw [Regs.pad_bitcnt, Regs.pad_bitcnt, hc]
  · rw [Regs.pad_fin, Regs.pad_fin, hn]
  · rw [Regs.pad_digest, Regs.pad_digest, hd]
  · rw [Regs.pad_hex, Regs.pad_hex, hx]

/-- `FINISH` leaves the same registers, and so the same digest, stale bytes or not (R113). -/
theorem Regs.Agrees.finish_eq {c d : Regs} (h : c.Agrees d) : c.finish = d.finish := by
  rw [Regs.finish, Regs.finish, h.pad_eq]

/-! ## Chunking invariance (R96) -/

/-- `FINISH` after several `UPDATE`s leaves what their stream leaves, however it is cut into chunks (R96). -/
theorem Regs.finish_updates_of_flatten_eq (c : Regs) {parts others : List (List Byte)}
    (hstream : parts.flatten = others.flatten) : (c.updates parts).finish = (c.updates others).finish :=
  (c.updates_agrees_of_flatten_eq hstream).finish_eq

/-- Settles O21: every partition agrees with absorbing the stream byte by byte, and `FINISH` reads no stale byte; two
chunks and their concatenation are two partitions of one stream. -/
theorem chunkingInvariance : Obligations.ChunkingInvariance := by
  refine ⟨fun c parts others hstream => ?_, fun c first second => ?_⟩
  · rw [c.newSession.finish_updates_of_flatten_eq hstream]
    exact ⟨rfl, rfl⟩
  · have hstream : [first, second].flatten = [first ++ second].flatten := by simp
    have hfinish := c.newSession.finish_updates_of_flatten_eq hstream
    rw [Regs.updates_cons, Regs.updates_cons, Regs.updates_cons, Regs.updates_nil, Regs.updates_nil] at hfinish
    rw [hfinish]

end Sys2Proof.Machine
end

section
/-! PROOFS. The finalizer (`42_finalization.md`): the one or two last blocks of `PAD` byte by byte (R106 to R110), the
same blocks as one byte string, and what `FINISH` leaves and answers (R113). -/

namespace Sys2Proof.Machine

/-! ## The marked block (R106, R107) -/

/-- The buffered bytes, `PAD_BYTE` after them, and zeros from there to the end of the block (R106, R107). -/
def Regs.markedBlock (c : Regs) : Block := zeroFill (c.buf.set c.fill.val padByte) (c.fill.val + 1) 64

/-- Before the marker the buffered bytes stay (R106). -/
theorem Regs.markedBlock_getElem_of_lt {c : Regs} {j : Nat} (hj : j < 64) (hlt : j < c.fill.val) :
    c.markedBlock[j] = c.buf[j] := by
  rw [markedBlock, zeroFill_getElem, if_neg (by omega), Vector.getElem_set_ne _ _ (by omega)]

/-- The marker stands right after the buffered bytes (R106). -/
theorem Regs.markedBlock_getElem_of_eq {c : Regs} {j : Nat} (hj : j < 64) (heq : j = c.fill.val) :
    c.markedBlock[j] = 0x80 := by
  subst heq
  rw [markedBlock, zeroFill_getElem, if_neg (by omega), Vector.getElem_set_self]
  rfl

/-- After the marker there are zeros (R107, R108). -/
theorem Regs.markedBlock_getElem_of_gt {c : Regs} {j : Nat} (hj : j < 64) (hgt : c.fill.val < j) :
    c.markedBlock[j] = 0x00 := by
  rw [markedBlock, zeroFill_getElem, if_pos (by omega)]

/-! ## The length in the last eight bytes (R109) -/

/-- The length is written behind byte 55 only (R109). -/
theorem memWrite_be64Bytes_getElem_of_lt (front : Block) (L : DWord) {j : Nat} (hj : j < 64) (hlt : j < 56) :
    (memWrite front 56 (be64Bytes L))[j] = front[j] := by
  rw [memWrite_getElem, dif_neg (by omega)]

/-- The last eight bytes are the length, most significant byte first (R109). -/
theorem memWrite_be64Bytes_getElem_of_ge (front : Block) (L : DWord) {j : Nat} (hj : j < 64) (hge : 56 ≤ j) :
    (memWrite front 56 (be64Bytes L))[j] = L.extractLsb' (8 * (63 - j)) 8 := by
  have hplace : 7 - (j - 56) = 63 - j := by omega
  rw [memWrite_getElem, dif_pos (by omega), ← hplace]
  exact be64Bytes_getElem L ⟨j - 56, by omega⟩

/-! ## The last block and the compressions (R107 to R110) -/

/-- Where one block is enough, it is the marked block with the length written over its last zeros (R108, R109). -/
theorem Regs.pad_buf_of_lt {c : Regs} (hshort : c.fill.val < 56) :
    c.pad.buf = memWrite c.markedBlock 56 (be64Bytes c.bitcnt) := by
  refine Vector.ext fun j hj => ?_
  rw [Regs.pad_buf, (c.padTo56_short hshort).2, memWrite_getElem, memWrite_getElem, Regs.markedBlock, zeroFill_getElem,
    zeroFill_getElem]
  split
  · rfl
  · have h56 : j < 56 := by omega
    simp only [h56, hj]

/-- Where two blocks are needed, the last is zeros and the length (R108, R109). -/
theorem Regs.pad_buf_of_ge {c : Regs} (hlong : 56 ≤ c.fill.val) :
    c.pad.buf = memWrite (Vector.replicate 64 0x00) 56 (be64Bytes c.bitcnt) := by
  have hzeros : c.padTo56.buf = Vector.replicate 64 0x00 := Vector.ext fun j hj => by
    rw [(c.padTo56_long hlong).2 j hj, Vector.getElem_replicate]
  rw [Regs.pad_buf, hzeros]

/-- Where one block is enough, `H` is advanced by it alone (R110). -/
theorem Regs.pad_h_of_lt {c : Regs} (hshort : c.fill.val < 56) : c.pad.h = compressFn c.h c.pad.buf := by
  rw [Regs.pad_h, (c.padTo56_short hshort).1]

/-- Where two blocks are needed, `H` is advanced by the marked block and then by the last (R107, R110). -/
theorem Regs.pad_h_of_ge {c : Regs} (hlong : 56 ≤ c.fill.val) :
    c.pad.h = compressFn (compressFn c.h c.markedBlock) c.pad.buf := by
  rw [Regs.pad_h, (c.padTo56_long hlong).1, Regs.markedBlock]

/-- Settles O34: the last block is what `PAD` leaves in `BUF`; where there are two, the first is the marked block. -/
theorem padLayout : Obligations.PadLayout := by
  refine fun c => ⟨fun hshort => ⟨c.pad.buf, fun j => ?_, Regs.pad_h_of_lt hshort, rfl⟩,
    fun hlong => ⟨c.markedBlock, c.pad.buf, fun j => ?_, fun j => ?_, Regs.pad_h_of_ge hlong, rfl⟩,
    c.pad_fill, c.pad_bitcnt⟩
  · have hfront : j.val < 56 → c.pad.buf[j] = c.markedBlock[j] := fun h56 => by
      rw [Regs.pad_buf_of_lt hshort]
      exact memWrite_be64Bytes_getElem_of_lt _ _ j.isLt h56
    refine ⟨fun hlt => ?_, fun heq => ?_, fun hgt h56 => ?_, fun hge => ?_⟩
    · exact (hfront (by omega)).trans (Regs.markedBlock_getElem_of_lt j.isLt hlt)
    · exact (hfront (by omega)).trans (Regs.markedBlock_getElem_of_eq j.isLt heq)
    · exact (hfront h56).trans (Regs.markedBlock_getElem_of_gt j.isLt hgt)
    · rw [Regs.pad_buf_of_lt hshort]
      exact memWrite_be64Bytes_getElem_of_ge _ _ j.isLt hge
  · exact ⟨Regs.markedBlock_getElem_of_lt j.isLt, Regs.markedBlock_getElem_of_eq j.isLt,
      Regs.markedBlock_getElem_of_gt j.isLt⟩
  · rw [Regs.pad_buf_of_ge hlong]
    refine ⟨fun h56 => ?_, memWrite_be64Bytes_getElem_of_ge _ _ j.isLt⟩
    exact (memWrite_be64Bytes_getElem_of_lt _ _ j.isLt h56).trans (Vector.getElem_replicate ..)

/-! ## The last blocks as one byte string (R114) -/

/-- The bytes that `PAD` compresses: the buffered ones, 0x80, the least number of zeros that makes whole blocks, and the
counter (R106 to R109). -/
def Regs.paddedRest (c : Regs) : List Byte :=
  c.buf.toList.take c.fill.val ++
    0x80 :: (List.replicate ((119 - c.fill.val) % 64) 0x00 ++ (be64Bytes c.bitcnt).toList)

/-- A block is read back from a byte string that begins with its bytes (R70). -/
theorem blockOf_toList_append (B : Block) (more : List Byte) : blockOf (B.toList ++ more) = B := by
  refine Vector.ext fun i hi => ?_
  rw [blockOf_getElem _ _ hi (by simp), List.getElem_append_left (by simpa using hi), Vector.getElem_toList]

/-- Hashing a byte string that begins with a block compresses it first (R97). -/
theorem hashBlocks_succ_toList_append (q : Nat) (h : StateWords) (B : Block) (more : List Byte) :
    hashBlocks (q + 1) h (B.toList ++ more) = hashBlocks q (compressFn h B) more := by
  rw [hashBlocks_succ, blockOf_toList_append, List.drop_left' (by simp)]

/-- The marked block up to byte `hi` as a byte string (R106 to R108). -/
theorem Regs.markedBlock_toList_take {c : Regs} {hi : Nat} (hfill : c.fill.val < hi) (hhi : hi ≤ 64) :
    c.markedBlock.toList.take hi =
      c.buf.toList.take c.fill.val ++ 0x80 :: List.replicate (hi - (c.fill.val + 1)) 0x00 := by
  have hlen : (c.buf.toList.take c.fill.val).length = c.fill.val := List.length_take_of_le (by simp)
  refine List.ext_getElem (by simp; omega) fun j hj hj' => ?_
  have h64 : j < 64 := by simp at hj; omega
  rw [List.getElem_take, Vector.getElem_toList, List.getElem_append]
  rcases Nat.lt_trichotomy j c.fill.val with hlt | heq | hgt
  · rw [dif_pos (by omega), markedBlock_getElem_of_lt h64 hlt, List.getElem_take, Vector.getElem_toList]
  · rw [dif_neg (by omega), markedBlock_getElem_of_eq h64 heq]
    simp [hlen, heq]
  · rw [dif_neg (by omega), markedBlock_getElem_of_gt h64 hgt, List.getElem_cons, dif_neg (by omega),
      List.getElem_replicate]

/-- A block with the length in its last eight bytes, as a byte string (R109). -/
theorem memWrite_be64Bytes_toList (front : Block) (L : DWord) :
    (memWrite front 56 (be64Bytes L)).toList = front.toList.take 56 ++ (be64Bytes L).toList := by
  refine List.ext_getElem (by simp) fun j hj hj' => ?_
  have h64 : j < 64 := by simpa using hj
  rw [Vector.getElem_toList, memWrite_getElem, List.getElem_append]
  rcases Nat.lt_or_ge j 56 with hlt | hge
  · rw [dif_neg (by omega), dif_pos (by simpa using hlt), List.getElem_take, Vector.getElem_toList]
  · rw [dif_pos (by omega), dif_neg (by simpa using hge), Vector.getElem_toList]
    simp

/-- Where one block is enough, it holds the padded rest (R106 to R109). -/
theorem Regs.paddedRest_of_lt {c : Regs} (hshort : c.fill.val < 56) : c.paddedRest = c.pad.buf.toList := by
  have hzeros : (119 - c.fill.val) % 64 = 56 - (c.fill.val + 1) := by omega
  rw [Regs.pad_buf_of_lt hshort, memWrite_be64Bytes_toList, Regs.markedBlock_toList_take hshort (by omega),
    List.append_assoc, List.cons_append, Regs.paddedRest, hzeros]

/-- Where two blocks are needed, they hold the padded rest, one after the other (R106 to R109). -/
theorem Regs.paddedRest_of_ge {c : Regs} (hlong : 56 ≤ c.fill.val) :
    c.paddedRest = c.markedBlock.toList ++ c.pad.buf.toList := by
  have hzeros : (119 - c.fill.val) % 64 = 64 - (c.fill.val + 1) + 56 := by omega
  have hmarked := Regs.markedBlock_toList_take c.fill.isLt (Nat.le_refl 64)
  rw [List.take_of_length_le (by simp)] at hmarked
  rw [Regs.pad_buf_of_ge hlong, memWrite_be64Bytes_toList, hmarked, Regs.paddedRest, hzeros, List.replicate_add]
  simp

/-- `PAD` advances `H` by the one or two blocks of the padded rest (R106 to R110). -/
theorem Regs.pad_h_eq_hashBlocks (c : Regs) :
    c.pad.h = hashBlocks (if c.fill.val < 56 then 1 else 2) c.h c.paddedRest := by
  rcases Nat.lt_or_ge c.fill.val 56 with hshort | hlong
  · rw [if_pos hshort, Regs.paddedRest_of_lt hshort, ← List.append_nil c.pad.buf.toList,
      hashBlocks_succ_toList_append, hashBlocks_zero, Regs.pad_h_of_lt hshort]
  · rw [if_neg (by omega), Regs.paddedRest_of_ge hlong, hashBlocks_succ_toList_append,
      ← List.append_nil c.pad.buf.toList, hashBlocks_succ_toList_append, hashBlocks_zero, Regs.pad_h_of_ge hlong]

/-! ## `FINISH` (R113, R127) -/

/-- `FINISH` while finished is rejected, and no register is written (R127). -/
theorem exec_finish_of_finished {s : State} (hfin : s.regs.fin = true) :
    exec .finish s = .next (s.respond (.error .invalidState)) := by
  obtain ⟨_, he⟩ | ⟨hf, _⟩ := execFinish_cases s
  · exact he
  · simp [hfin] at hf

/-- Settles O35: the phase decides between rejection and completion, and the `H` that completion leaves is the one `PAD`
leaves, advanced by the padded rest. -/
theorem finishProducesDigest : Obligations.FinishProducesDigest :=
  ⟨fun _ hfin => exec_finish_of_finished hfin, fun s hfin => ⟨_, exec_finish_of_active hfin, s.regs.finish_fin,
    s.regs.finish_fill, s.regs.finish_bitcnt, s.regs.finish_h.trans s.regs.pad_h_eq_hashBlocks,
    s.regs.finish_digest_eq, s.regs.finish_hex_eq, rfl⟩⟩

end Sys2Proof.Machine
end

section
/-! PROOFS. Rejected commands (`60_exceptions.md`): `UPDATE` and `FINISH` while finished (R126, R127), and what a
rejection consumes and leaves (R131). -/

namespace Sys2Proof

open Sys2Proof.Machine

/-! ## The frame a command was read from (R56, R57) -/

/-- The `LEN` field of a chunk is the one 8-byte string that says its length (R57). -/
theorem lenBytes_eq_of_be {len chunk : List Byte} (hlen : len.length = 8) (hchunk : chunk.length = be len) :
    lenBytes chunk = len := by
  have hfits : chunk.length < 2 ^ 64 := by
    rw [hchunk]
    exact (be_lt len).trans_eq (by rw [hlen]; norm_num)
  refine be_injective_of_length (by rw [lenBytes_length, hlen]) ?_
  rw [lenBytes, be_be64Bytes, BitVec.toNat_ofNat, Nat.mod_eq_of_lt hfits, hchunk]

/-- What the decoder reads from after a format `P` opcode is the chunk's own `LEN` and payload, whole (R56, R57). -/
theorem eq_append_of_decodePayload {op : Byte} {mk : List Byte → Instr} {tail rest : List Byte} {i : Instr}
    (h : decodePayload op mk tail = .frame i rest) :
    ∃ chunk, i = mk chunk ∧ tail = lenBytes chunk ++ chunk ++ rest := by
  obtain ⟨he, _⟩ | ⟨hwhole, he⟩ := decodePayload_cases op mk tail <;> rw [he] at h <;> cases h
  have hlen : (tail.take 8).length = 8 := by rw [List.length_take]; omega
  have hchunk : ((tail.drop 8).take (lenField tail)).length = be (tail.take 8) := by
    rw [List.length_take, List.length_drop, Nat.min_eq_left (by omega), lenField]
  refine ⟨_, rfl, ?_⟩
  rw [lenBytes_eq_of_be hlen hchunk, List.append_assoc, List.take_append_drop, List.take_append_drop]

/-- An assigned opcode byte is the byte of the command it names (R58). -/
theorem eq_opcodeByte_of_opcodeOf {op : Byte} {o : Opcode} (h : opcodeOf op = some o) : op = opcodeByte o := by
  unfold opcodeOf at h
  split_ifs at h with h1 h2 h3 h4 <;> cases h <;> assumption

/-- The bytes a command is read from are that command's frame, and then the rest (R56, R65). -/
theorem eq_encode_append_of_decode {bytes rest : List Byte} {i : Instr} (h : decode bytes = .frame i rest) :
    bytes = encode i ++ rest := by
  cases bytes with
  | nil => cases h
  | cons op tail =>
    rw [decode] at h
    split at h
    case h_1 => cases h
    case h_2 hop | h_4 hop =>
      cases h
      rw [eq_opcodeByte_of_opcodeOf hop]
      rfl
    case h_3 hop | h_5 hop =>
      obtain ⟨chunk, rfl, htail⟩ := eq_append_of_decodePayload h
      rw [eq_opcodeByte_of_opcodeOf hop, htail]
      rfl

end Sys2Proof

namespace Sys2Proof.Machine

/-! ## Use after finalization (R126, R127) -/

/-- Settles O43: the phase check comes before the chunk is looked at. -/
theorem updateAfterFinishIsRejected : Obligations.UpdateAfterFinishIsRejected :=
  fun _ chunk hfin => exec_update_of_finished hfin chunk

/-- Settles O44: the phase decides between rejection and completion, and nothing else does. -/
theorem secondFinishIsRejected : Obligations.SecondFinishIsRejected :=
  fun _ => ⟨exec_finish_of_finished, fun hfin => ⟨_, _, _, exec_finish_of_active hfin, rfl⟩⟩

/-! ## Rejections (R131) -/

/-- A command that answers an error is an `UPDATE` or a `FINISH` while finished, and adds the response alone (R126,
R127, R131). -/
theorem exec_error_cases {i : Instr} {s t : State} {e : CmdError} (h : exec i s = .next t)
    (herror : t.responses = s.responses ++ [.error e]) :
    s.regs.fin = true ∧ e = .invalidState ∧ t = s.respond (.error .invalidState) ∧
      ((∃ chunk, i = .update chunk) ∨ i = .finish) := by
  cases i with
  | new => cases h; simp at herror
  | update chunk =>
    rw [exec] at h
    obtain ⟨hfin, he⟩ | ⟨_, _, he⟩ | ⟨_, _, he⟩ := execUpdate_cases chunk s <;> rw [he] at h <;> cases h
    · exact ⟨hfin, by simpa using herror.symm, rfl, .inl ⟨chunk, rfl⟩⟩
    · simp at herror
  | finish =>
    rw [exec] at h
    obtain ⟨hfin, he⟩ | ⟨_, he⟩ := execFinish_cases s <;> rw [he] at h <;> cases h
    · exact ⟨hfin, by simpa using herror.symm, rfl, .inr rfl⟩
    · simp at herror
  | digestHex chunk =>
    obtain ⟨x, hresponses, _⟩ := exec_digestHex_responses h
    simp [hresponses] at herror

/-- Settles O45: of all a step can do, only a rejected command and a reserved opcode answer an error; both leave the
registers, and the decoder took exactly the frame it read. -/
theorem rejectionChangesNothing : Obligations.RejectionChangesNothing := by
  intro s t e hreset hstep herror
  obtain ⟨hreq, _⟩ | ⟨_, _, rfl⟩ | ⟨_, i, rest, hdecode, hexec⟩ | ⟨_, op, rest, hdecode, rfl⟩ := step_cases hstep
  · simp [hreset] at hreq
  · simp at herror
  · have hframes : s.frames = encode i ++ rest := eq_encode_append_of_decode hdecode
    obtain ⟨hfin, rfl, rfl, ⟨chunk, rfl⟩ | rfl⟩ := exec_error_cases hexec herror
    · exact ⟨rfl, hreset, rfl, .inl ⟨chunk, hframes, rfl, hfin⟩⟩
    · exact ⟨rfl, hreset, rfl, .inr (.inl ⟨hframes, rfl, hfin⟩)⟩
  · obtain ⟨hframes, hop⟩ := decode_reserved hdecode
    exact ⟨rfl, hreset, rfl, .inr (.inr ⟨op, hframes, hop, by simpa using herror.symm⟩)⟩

end Sys2Proof.Machine
end

section
/-! PROOFS. Hardware reset (R145), `70_reset_and_hazards.md` section 1. -/

namespace Sys2Proof.Machine

/-- The reset registers are a session `NEW` has started: reset does exactly what `NEW` does (R90, R145). -/
theorem Regs.newSession_reset : Regs.reset.newSession = Regs.reset := rfl

/-- The specified values of a fresh session (R37, R145), which `NEW` gives every register state; `BUF` has none. -/
theorem Regs.reset_fields :
    Regs.reset.h = iv ∧ Regs.reset.fill = 0 ∧ Regs.reset.bitcnt = 0 ∧ Regs.reset.phase = .active ∧
      Regs.reset.digest = none ∧ Regs.reset.hex = none := by
  rw [← Regs.newSession_reset]
  exact ⟨Regs.newSession_h _, Regs.newSession_fill _, Regs.newSession_bitcnt _, rfl,
    Regs.newSession_digest _, Regs.newSession_hex _⟩

/-- Settles O11: the reset state and any state after a reset hold the same registers, those of a fresh session. -/
theorem resetLeavesFreshSession : Obligations.ResetLeavesFreshSession := by
  refine ⟨Regs.reset_fields, fun s => ?_⟩
  obtain ⟨hh, hfill, hbitcnt, hphase, hdigest, hhex⟩ := Regs.reset_fields
  rw [s.takeReset_regs]
  exact ⟨hh, hfill, hbitcnt, hphase, hdigest, hhex, s.takeReset_responses⟩

end Sys2Proof.Machine
end

section
/-! PROOFS. Frames and their encoding (`30_encoding.md` R56 to R60): the round trip, whole and truncated frames. -/

namespace Sys2Proof

open Sys2Proof.Machine

/-! ## The decoder undoes the encoder (R56, R57) -/

/-- The `LEN` field of a chunk that fits it says the chunk's length (R57). -/
theorem be_lenBytes {chunk : List Byte} (hfits : lenFits chunk) : be (lenBytes chunk) = chunk.length := by
  rw [lenBytes, be_be64Bytes, BitVec.toNat_ofNat, Nat.mod_eq_of_lt hfits]

/-- After a format `P` opcode, the `LEN` and payload of a chunk are read back as that chunk (R57, R65). -/
theorem decodePayload_lenBytes_append (op : Byte) (mk : List Byte → Instr) {chunk : List Byte} (rest : List Byte)
    (hfits : lenFits chunk) : decodePayload op mk (lenBytes chunk ++ chunk ++ rest) = .frame (mk chunk) rest :=
  decodePayload_append op mk rest (lenBytes_length chunk) (be_lenBytes hfits).symm

/-- The frame of an `UPDATE` is read back as that `UPDATE` (R56 to R58). -/
theorem decode_encode_update {chunk : List Byte} (rest : List Byte) (hfits : lenFits chunk) :
    decode (encode (.update chunk) ++ rest) = .frame (.update chunk) rest :=
  decodePayload_lenBytes_append 0x02 .update rest hfits

/-- The frame of a `DIGEST_HEX` is read back as that `DIGEST_HEX` (R56 to R58). -/
theorem decode_encode_digestHex {chunk : List Byte} (rest : List Byte) (hfits : lenFits chunk) :
    decode (encode (.digestHex chunk) ++ rest) = .frame (.digestHex chunk) rest :=
  decodePayload_lenBytes_append 0x04 .digestHex rest hfits

/-- Settles O1: a format `N` frame is its opcode byte, and a format `P` frame carries the chunk's own `LEN`. -/
theorem decodeEncodeRoundTrip : Obligations.DecodeEncodeRoundTrip := by
  intro i rest hwf
  cases i with
  | new => rfl
  | update chunk => exact decode_encode_update rest (of_decide_eq_true hwf)
  | finish => rfl
  | digestHex chunk => exact decode_encode_digestHex rest (of_decide_eq_true hwf)

/-! ## What is decoded is well-formed (R57) -/

/-- Eight bytes of `LEN` say less than 2^64 (R57). -/
theorem lenField_lt (tail : List Byte) : lenField tail < 2 ^ 64 := by
  have hlen : (tail.take 8).length ≤ 8 := List.length_take_le 8 tail
  calc lenField tail < 256 ^ (tail.take 8).length := be_lt _
    _ ≤ 256 ^ 8 := Nat.pow_le_pow_right (by norm_num) hlen
    _ = 2 ^ 64 := by norm_num

/-- The chunk read from after a format `P` opcode is no longer than `LEN` can say (R57). -/
theorem lenFits_of_decodePayload {op : Byte} {mk : List Byte → Instr} {tail rest : List Byte} {i : Instr}
    (h : decodePayload op mk tail = .frame i rest) : ∃ chunk, i = mk chunk ∧ lenFits chunk := by
  obtain ⟨he, _⟩ | ⟨_, he⟩ := decodePayload_cases op mk tail <;> rw [he] at h <;> cases h
  exact ⟨_, rfl, (List.length_take_le _ _).trans_lt (lenField_lt tail)⟩

/-- Every command that the decoder reads has a frame (R56, R57). -/
theorem wf_of_decode {bytes rest : List Byte} {i : Instr} (h : decode bytes = .frame i rest) : i.wf = true := by
  cases bytes with
  | nil => cases h
  | cons op tail =>
    rw [decode] at h
    split at h
    case h_1 => cases h
    case h_2 | h_4 => cases h; rfl
    case h_3 | h_5 =>
      obtain ⟨chunk, rfl, hfits⟩ := lenFits_of_decodePayload h
      exact decide_eq_true hfits

/-- Settles O2: a command is read from its own frame, and its chunk has passed through `LEN`. -/
theorem decodeReadsWholeFrames : Obligations.DecodeReadsWholeFrames :=
  fun _ _ _ h => ⟨wf_of_decode h, eq_encode_append_of_decode h⟩

/-! ## Truncated frames and sample frames (R60) -/

/-- A format `P` frame with bytes missing is no command (R60). -/
theorem decodePayload_of_short (op : Byte) (mk : List Byte → Instr) {tail : List Byte}
    (hshort : tail.length < 8 ∨ tail.length < 8 + lenField tail) : decodePayload op mk tail = .truncated op := by
  obtain ⟨he, _⟩ | ⟨hwhole, _⟩ := decodePayload_cases op mk tail
  · exact he
  · omega

/-- A step at a truncated frame has no move (R60). -/
theorem step_of_decode_truncated {s : State} {op : Byte} (hreset : s.resetReq = false)
    (hdecode : decode s.frames = .truncated op) : step s = .refused .truncatedFrame := by
  rw [step_of_not_resetReq hreset, hdecode, runDecoded]

/-- Settles O6: either format `P` opcode with bytes missing is called truncated by the decoder. -/
theorem truncatedFrameHasNoMove : Obligations.TruncatedFrameHasNoMove := by
  intro s op tail hreset hframes hop hshort
  refine step_of_decode_truncated (op := op) hreset ?_
  rw [hframes]
  obtain rfl | rfl := hop
  · rw [decode_update, decodePayload_of_short _ _ hshort]
  · rw [decode_digestHex, decodePayload_of_short _ _ hshort]

/-- Settles O7: each of the six byte strings is decoded as it stands. -/
theorem sampleFramesDecode : Obligations.SampleFramesDecode :=
  ⟨rfl, by decide, rfl, by decide, by decide, rfl⟩

end Sys2Proof
end

section
/-! PROOFS. One step of the core: the reset first, then the next frame, else the core waits (`30_encoding.md` R65,
`60_exceptions.md` R140, `70_reset_and_hazards.md` R145), and what every command leaves of the exchange with the host
(`20_memory.md` R49, R50). -/

namespace Sys2Proof.Machine

/-! ## What a step runs (R65, R140, R145) -/

/-- A step at a whole frame is its command, on the state that no longer holds the frame (R65). -/
theorem step_of_decode_frame {s : State} {i : Instr} {rest : List Byte} (hreset : s.resetReq = false)
    (hdecode : decode s.frames = .frame i rest) : step s = exec i (s.withFrames rest) := by
  rw [step_of_not_resetReq hreset, hdecode, runDecoded]

/-- A step with no command issued leaves the state as it is (R140). -/
theorem step_of_decode_idle {s : State} (hreset : s.resetReq = false) (hdecode : decode s.frames = .idle) :
    step s = .next s := by
  rw [step_of_not_resetReq hreset, hdecode, runDecoded]

/-- A reset the host has asked for is the whole step (R145). -/
theorem step_of_resetReq {s : State} (hreset : s.resetReq = true) : step s = .next s.takeReset := by
  simp [step, runNext, hreset]

/-- Settles O8: without a reset to take, the step is what the decoder found. -/
theorem stepRunsDecoded : Obligations.StepRunsDecoded := fun _ _ _ => step_of_decode_frame

/-- Settles O9: the decoder finds nothing in an empty stream. -/
theorem idleStepChangesNothing : Obligations.IdleStepChangesNothing := fun s hreset hframes =>
  step_of_decode_idle hreset (by rw [hframes, decode_nil])

/-- Settles O12: the reset is looked for before the stream is, and leaves it. -/
theorem resetRequestIsTakenFirst : Obligations.ResetRequestIsTakenFirst := fun s hreset =>
  ⟨step_of_resetReq hreset, s.takeReset_frames, s.takeReset_resetReq⟩

/-! ## What every command leaves (R49, R50) -/

/-- A command that answers writes registers and adds one response, and nothing else (R49, R50, R61). -/
theorem exec_eq_withRegs_respond {i : Instr} {s t : State} (h : exec i s = .next t) :
    ∃ c r, t = (s.withRegs c).respond r := by
  obtain ⟨e, rfl⟩ | ⟨_, rfl⟩ | ⟨_, _, _, _, rfl⟩ | ⟨_, _, rfl⟩ | ⟨_, _, _, rfl⟩ := exec_cases h
  · exact ⟨s.regs, .error e, rfl⟩
  all_goals exact ⟨_, _, rfl⟩

/-- A command leaves the rest of the command stream (R49). -/
theorem exec_frames {i : Instr} {s t : State} (h : exec i s = .next t) : t.frames = s.frames := by
  obtain ⟨c, r, rfl⟩ := exec_eq_withRegs_respond h
  rfl

/-- A command leaves the reset request (R145). -/
theorem exec_resetReq {i : Instr} {s t : State} (h : exec i s = .next t) : t.resetReq = s.resetReq := by
  obtain ⟨c, r, rfl⟩ := exec_eq_withRegs_respond h
  rfl

/-- A command leaves the responses given before its own (R61). -/
theorem exec_responses_prefix {i : Instr} {s t : State} (h : exec i s = .next t) : s.responses <+: t.responses := by
  obtain ⟨c, r, rfl⟩ := exec_eq_withRegs_respond h
  exact List.prefix_append s.responses [r]

/-- Settles O47: a command writes registers and gives its one response. -/
theorem commandFrame : Obligations.CommandFrame :=
  fun _ _ _ h => ⟨exec_frames h, exec_resetReq h, exec_responses_prefix h⟩

end Sys2Proof.Machine
end

section
/-! PROOFS. The invariant between commands (`10_state.md` R35, `42_finalization.md` R118): every operation on the
registers keeps it, and so does every step. -/

namespace Sys2Proof.Machine

/-! ## The registers (R26, R27, R31, R35) -/

/-- A fresh session has the invariant, whatever was there before (R90). -/
theorem Regs.newSession_inv (c : Regs) : c.newSession.Inv :=
  ⟨by simp, fun _ => ⟨by simp, c.newSession_digest, c.newSession_hex⟩, fun hfin => nomatch hfin⟩

/-- The reset registers have the invariant: they are those of a fresh session (R145). -/
theorem Regs.reset_inv : Regs.reset.Inv := Regs.newSession_reset ▸ Regs.newSession_inv Regs.reset

/-- An `UPDATE` of `n` bytes adds `8 * n` bits to the counter, modulo 2^64 (R94, D10). -/
theorem Regs.update_bitcnt_toNat_mod (c : Regs) (chunk : List Byte) :
    (c.update chunk).bitcnt.toNat = (c.bitcnt.toNat + 8 * chunk.length) % 2 ^ 64 := by
  rw [Regs.update_bitcnt, bitsOf, BitVec.toNat_add, BitVec.toNat_ofNat, Nat.add_mod_mod]

/-- `UPDATE` while active keeps the invariant: both counts grow by the chunk, and 2^64 bits are whole blocks, so even a
counter that wraps still counts bytes modulo 64 (R94, R101). -/
theorem Regs.Inv.update {c : Regs} (h : c.Inv) (hfin : c.fin = false) (chunk : List Byte) : (c.update chunk).Inv := by
  obtain ⟨hbytes, hactive, _⟩ := h
  obtain ⟨hfill, hdigest, hhex⟩ := hactive hfin
  refine ⟨?_, fun _ => ⟨?_, ?_, ?_⟩, fun hfinished => ?_⟩
  · rw [Regs.update_bitcnt_toNat_mod]; omega
  · rw [Regs.update_bitcnt_toNat_mod, Regs.update_fill, hfill]; omega
  · rw [Regs.update_digest, hdigest]
  · rw [Regs.update_hex, hhex]
  · simp [hfin] at hfinished

/-- `FINISH` keeps the invariant: it leaves the counter, and makes `DIGEST` and `HEX` from its own `H` (R113). -/
theorem Regs.Inv.finish {c : Regs} (h : c.Inv) : c.finish.Inv := by
  obtain ⟨hbytes, _⟩ := h
  refine ⟨by rwa [Regs.finish_bitcnt], fun hactive => ?_,
    fun _ => ⟨c.finish_fill, c.finish_digest_eq, c.finish_hex_eq⟩⟩
  simp at hactive

/-- `DIGEST_HEX` leaves the invariant, whatever was there before (R116). -/
theorem Regs.digestHex_inv (chunk : List Byte) (c : Regs) : (c.digestHex chunk).Inv :=
  (c.newSession_inv.update c.newSession_fin chunk).finish

/-- Settles O48: the invariant says what `DIGEST` and `HEX` hold in each phase. -/
theorem digestIsReadableWhileFinished : Obligations.DigestIsReadableWhileFinished := by
  rintro s ⟨_, hactive, hfinished⟩
  refine ⟨fun hfin => ?_, fun hfin => ?_⟩
  · obtain ⟨_, hdigest, hhex⟩ := hfinished hfin
    simp [State.readDigest, State.readHex, hdigest, hhex]
  · obtain ⟨_, hdigest, hhex⟩ := hactive hfin
    simp [State.readDigest, State.readHex, hdigest, hhex]

/-! ## The registers and the responses (R118) -/

/-- Settles O52: a fresh session, and no response given. -/
theorem invAtReset : Obligations.InvAtReset := ⟨Regs.reset_inv, fun _ hr => nomatch hr⟩

/-- The invariant after a command is that of its registers and of its one response (R118). -/
theorem State.Inv.respond {s : State} (h : s.Inv) {c : Regs} (hregs : c.Inv) {r : Response} (hr : r.Consistent) :
    ((s.withRegs c).respond r).Inv := by
  obtain ⟨_, hgiven⟩ := h
  refine ⟨hregs, fun r' hmem => ?_⟩
  rw [State.respond_responses, List.mem_append, List.mem_singleton] at hmem
  obtain hold | rfl := hmem
  · exact hgiven r' hold
  · exact hr

/-- An error response leaves the invariant: no register is written (R131). -/
theorem State.Inv.respond_error {s : State} (h : s.Inv) (e : CmdError) : (s.respond (.error e)).Inv := by
  have ⟨hregs, _⟩ := h
  exact h.respond hregs (r := .error e) trivial

/-- What is left of the command stream plays no part in the invariant. -/
theorem State.Inv.withFrames {s : State} (h : s.Inv) (frames : List Byte) : (s.withFrames frames).Inv := h

/-- Every command keeps the invariant. -/
theorem State.Inv.exec {i : Instr} {s t : State} (h : s.Inv) (hexec : exec i s = .next t) : t.Inv := by
  have ⟨hregs, _⟩ := h
  obtain ⟨e, rfl⟩ | ⟨_, rfl⟩ | ⟨chunk, _, hfin, _, rfl⟩ | ⟨_, _, rfl⟩ | ⟨chunk, _, _, rfl⟩ := exec_cases hexec
  · exact h.respond_error e
  · exact h.respond s.regs.newSession_inv trivial
  · exact h.respond (hregs.update hfin chunk) trivial
  · exact h.respond hregs.finish rfl
  · exact h.respond (s.regs.digestHex_inv chunk) trivial

/-- Settles O53: reset and waiting aside, a step is a command or a rejection. -/
theorem stepKeepsInv : Obligations.StepKeepsInv := by
  intro s t h hstep
  obtain ⟨_, rfl⟩ | ⟨_, _, rfl⟩ | ⟨_, i, rest, _, hexec⟩ | ⟨_, op, rest, _, rfl⟩ := step_cases hstep
  · obtain ⟨_, hgiven⟩ := h
    exact ⟨Regs.reset_inv, hgiven⟩
  · exact h
  · exact (h.withFrames rest).exec hexec
  · exact (h.withFrames rest).respond_error .illegalCommand

end Sys2Proof.Machine
end

section
/-! PROOFS. Sessions in closed form (`41_streaming.md` R97, R98): the registers of an open session over a stream are,
but for stale bytes, those that absorbing the stream leaves from reset. -/

namespace Sys2Proof.Machine

/-! ## The registers of a stream (R97) -/

/-- The registers that absorbing a stream byte by byte leaves from reset, with the counter of its bits. -/
def Regs.ofStream (S : List Byte) : Regs :=
  (Regs.reset.absorbAll S).withBitcnt (BitVec.ofNat 64 (bitsOf S.length))

/-- Absorbing a stream into an empty buffer: the whole blocks are compressed in order, the bytes after them are stored
(R92, R97). -/
theorem Regs.absorbAll_of_empty {c : Regs} (hfill : c.fill.val = 0) (S : List Byte) :
    (c.absorbAll S).h = hashBlocks (S.length / 64) c.h S ∧
    ∀ i : Fin 64, i < (c.absorbAll S).fill → S[64 * (S.length / 64) + i.val]? = some (c.absorbAll S).buf[i] := by
  have hblocks : (S.take (64 * (S.length / 64))).length = 64 * (S.length / 64) := List.length_take_of_le (by omega)
  have hrest : (S.drop (64 * (S.length / 64))).length = S.length % 64 := by rw [List.length_drop]; omega
  have hempty : (c.absorbAll (S.take (64 * (S.length / 64)))).fill.val = 0 := by
    rw [Regs.absorbAll_fill, hblocks]; omega
  have hsplit : c.absorbAll S =
      (c.absorbAll (S.take (64 * (S.length / 64)))).absorbAll (S.drop (64 * (S.length / 64))) := by
    rw [← Regs.absorbAll_append, List.take_append_drop]
  obtain ⟨hh, hbuf⟩ := (c.absorbAll (S.take (64 * (S.length / 64)))).absorbAll_short
    (S.drop (64 * (S.length / 64))) (by omega)
  refine ⟨?_, fun i hi => ?_⟩
  · rw [hsplit, hh, c.absorbAll_blocks (S.length / 64) _ hfill hblocks, hashBlocks_take _ _ _ (by omega)]
  · rw [Fin.lt_def, Regs.absorbAll_fill, hfill] at hi
    have hstored := hbuf i i.isLt
    rw [dif_pos (by omega)] at hstored
    rw [hsplit, Fin.getElem_fin, hstored, List.getElem_drop, List.getElem?_eq_getElem (by omega)]
    simp [hempty]

/-- The registers of a stream are those of an open session over it (R97). -/
theorem Regs.ofStream_holds (S : List Byte) : (Regs.ofStream S).Holds S := by
  obtain ⟨hh, hbuf⟩ := Regs.absorbAll_of_empty (c := Regs.reset) rfl S
  refine ⟨by simp [ofStream, Regs.reset], hh, ?_, rfl, by simp [ofStream, Regs.reset], by simp [ofStream, Regs.reset],
    hbuf⟩
  rw [ofStream, Regs.withBitcnt_fill, Regs.absorbAll_fill]
  simp [Regs.reset]

/-- The closed form fixes every register but stale bytes (R29, R97). -/
theorem Regs.Holds.agrees {S : List Byte} {c d : Regs} (hc : c.Holds S) (hd : d.Holds S) : c.Agrees d := by
  obtain ⟨hfin, hh, hfill, hbitcnt, hdigest, hhex, hbuf⟩ := hc
  obtain ⟨hfin', hh', hfill', hbitcnt', hdigest', hhex', hbuf'⟩ := hd
  have hcd : c.fill = d.fill := Fin.ext (hfill.trans hfill'.symm)
  refine ⟨hh.trans hh'.symm, hcd, hbitcnt.trans hbitcnt'.symm, hfin.trans hfin'.symm, hdigest.trans hdigest'.symm,
    hhex.trans hhex'.symm, fun i hi => ?_⟩
  exact Option.some_injective _ ((hbuf i hi).symm.trans (hbuf' i (hcd ▸ hi)))

/-- The closed form says nothing of stale bytes (R29, R97). -/
theorem Regs.Holds.of_agrees {S : List Byte} {c d : Regs} (hd : d.Holds S) (h : c.Agrees d) : c.Holds S := by
  obtain ⟨hfin, hh, hfill, hbitcnt, hdigest, hhex, hbuf⟩ := hd
  obtain ⟨hh', hfill', hbitcnt', hfin', hdigest', hhex', hbuf'⟩ := h
  refine ⟨hfin'.trans hfin, hh'.trans hh, hfill' ▸ hfill, hbitcnt'.trans hbitcnt, hdigest'.trans hdigest,
    hhex'.trans hhex, fun i hi => ?_⟩
  rw [hbuf' i hi]
  exact hbuf i (hfill' ▸ hi)

/-- An open session over a stream: its registers are those of the stream, but for stale bytes (R97). -/
theorem Regs.holds_iff_agrees_ofStream {S : List Byte} {c : Regs} : c.Holds S ↔ c.Agrees (Regs.ofStream S) :=
  ⟨fun h => h.agrees (ofStream_holds S), (ofStream_holds S).of_agrees⟩

/-! ## `NEW`, reset and `UPDATE` (R90, R91, R145) -/

/-- A fresh session is open over the empty stream, whatever was there before (R90). -/
theorem Regs.newSession_holds (c : Regs) : c.newSession.Holds [] :=
  (ofStream_holds []).of_agrees ⟨rfl, rfl, rfl, rfl, rfl, rfl, fun _ hi => absurd hi (Fin.not_lt_zero _)⟩

/-- Settles O54: reset leaves a fresh session. -/
theorem sessionAtReset : Obligations.SessionAtReset := Regs.newSession_holds Regs.reset

/-- `UPDATE` appends its chunk to the stream of an open session (R93, R97). -/
theorem Regs.Holds.update {S : List Byte} {c : Regs} (h : c.Holds S) (chunk : List Byte) :
    (c.update chunk).Holds (S ++ chunk) := by
  have ⟨_, _, _, hbitcnt, _⟩ := h
  have hcount : (c.update chunk).bitcnt = BitVec.ofNat 64 (bitsOf (S ++ chunk).length) := by
    rw [Regs.update_bitcnt, hbitcnt, List.length_append, ← BitVec.ofNat_add, bitsOf, bitsOf, bitsOf, Nat.mul_add]
  have hstream := (holds_iff_agrees_ofStream.1 h).absorbAll chunk
  rw [ofStream, Regs.absorbAll_withBitcnt, ← Regs.absorbAll_append] at hstream
  have hupdate := (c.update_agrees_absorbAll chunk).trans (hstream.withBitcnt _)
  rw [hcount] at hupdate
  exact holds_iff_agrees_ofStream.2 hupdate

/-- Several `UPDATE`s append their chunks in order (R46, R97). -/
theorem Regs.Holds.updates {S : List Byte} {c : Regs} (h : c.Holds S) (chunks : List (List Byte)) :
    (c.updates chunks).Holds (S ++ chunks.flatten) := by
  induction chunks generalizing S c with
  | nil => rwa [Regs.updates_nil, List.flatten_nil, List.append_nil]
  | cons chunk chunks ih =>
    rw [Regs.updates_cons, List.flatten_cons, ← List.append_assoc]
    exact ih (h.update chunk)

/-- Settles O22: however a stream is cut into chunks, what is left agrees with absorbing it byte by byte. -/
theorem partitionLeavesSameState : Obligations.PartitionLeavesSameState :=
  fun c _ _ hstream => c.updates_agrees_of_flatten_eq hstream

/-- Settles O23: the closed form of the session that `NEW` opens, and its counter as a number. -/
theorem streamClosedForm : Obligations.StreamClosedForm := by
  intro c chunks S u hlen
  have hholds : u.Holds S := c.newSession_holds.updates chunks
  have hcount : u.bitcnt.toNat = 8 * S.length := c.newSession_updates_bitcnt_toNat hlen
  obtain ⟨hfin, hh, hfill, _, _, _, hbuf⟩ := hholds
  refine ⟨hh, hfill, fun i hi => hbuf i (Fin.lt_def.2 (hfill ▸ hi)), hcount, hfin, ?_⟩
  rw [Regs.blockCount, hcount]
  omega

end Sys2Proof.Machine
end

section
/-! PROOFS. The padded message (`42_finalization.md` R114): it is whole blocks, and `FINISH` of an open session
compresses those of its last blocks that no `UPDATE` has. -/

namespace Sys2Proof.Machine

/-! ## The padded message as bytes (R114) -/

/-- The padded message is whole blocks, as many as R114 says. -/
theorem padded_length (S : List Byte) : (padded S).length = 64 * ((S.length + 8) / 64 + 1) := by
  simp only [padded, List.length_append, List.length_cons, List.length_replicate, Vector.length_toList]
  omega

/-- Settles O41: the length, from which the bounds follow. -/
theorem paddingMakesWholeBlocks : Obligations.PaddingMakesWholeBlocks := fun S => by
  have hlen := padded_length S
  exact ⟨hlen, by omega, by omega, List.prefix_append S _⟩

/-- The bytes that `PAD` compresses in an open session are those of the padded message after the stream's whole
blocks (R97, R106 to R109). -/
theorem Regs.Holds.paddedRest_eq {S : List Byte} {c : Regs} (h : c.Holds S) :
    c.paddedRest = (padded S).drop (64 * (S.length / 64)) := by
  obtain ⟨_, _, hfill, hbitcnt, _, _, hbuf⟩ := h
  have hstored : c.buf.toList.take c.fill.val = S.drop (64 * (S.length / 64)) := by
    refine List.ext_getElem (by simp; omega) fun i hi hi' => ?_
    have hlt : i < c.fill.val := by simp at hi; omega
    have hbyte := hbuf ⟨i, by omega⟩ (Fin.lt_def.2 hlt)
    rw [List.getElem_take, Vector.getElem_toList, List.getElem_drop]
    exact Option.some_injective _ (hbyte.symm.trans (List.getElem?_eq_getElem _))
  rw [Regs.paddedRest, padded, List.drop_append_of_le_length (by omega), hstored, hfill, hbitcnt, padByte]

/-- `FINISH` of an open session leaves the state of the whole padded message: the stream's whole blocks are compressed
already, and `PAD` compresses the one or two that are left (R114). -/
theorem Regs.Holds.finish_h {S : List Byte} {c : Regs} (h : c.Holds S) : c.finish.h = finalState S := by
  have hrest := h.paddedRest_eq
  obtain ⟨_, hh, hfill, _⟩ := h
  have hcount : (S.length + 8) / 64 + 1 = S.length / 64 + if S.length % 64 < 56 then 1 else 2 := by
    split <;> omega
  have hblocks : hashBlocks (S.length / 64) iv (padded S) = streamState S :=
    hashBlocks_append _ _ _ _ (by omega)
  rw [Regs.finish_h, Regs.pad_h_eq_hashBlocks, hfill, hh, hrest, finalState, hcount, hashBlocks_add, hblocks]

/-- `FINISH` of an open session digests its stream (R113, R114). -/
theorem Regs.Holds.finish {S : List Byte} {c : Regs} (h : c.Holds S) : c.finish.Digested S := by
  have hfinal := h.finish_h
  obtain ⟨_, _, _, hbitcnt, _⟩ := h
  refine ⟨c.finish_fin, hfinal, c.finish_fill, c.finish_bitcnt.trans hbitcnt, ?_, ?_⟩
  · rw [Regs.finish_digest_eq, hfinal, sha1]
  · rw [Regs.finish_hex_eq, hfinal, sha1]

/-- `DIGEST_HEX` digests its chunk, whatever was there before (R116). -/
theorem Regs.digestHex_digested (chunk : List Byte) (c : Regs) : (c.digestHex chunk).Digested chunk :=
  (c.newSession_holds.update chunk).finish

/-- `DIGEST_HEX` that runs leaves and answers the digest of its chunk (R114, R116). -/
theorem exec_digestHex_digested {s : State} {chunk : List Byte}
    (hadmits : s.regs.newSession.admits chunk.length = true) :
    exec (.digestHex chunk) s =
      .next ((s.withRegs (s.regs.digestHex chunk)).respond (.okHex (hexRender (sha1 chunk)))) := by
  obtain ⟨_, hfinal, _⟩ := s.regs.digestHex_digested chunk
  rw [exec_digestHex_of_admits hadmits, hfinal, sha1]

/-- Settles O40: within capacity `DIGEST_HEX` runs, and its registers are those of its chunk's digest. -/
theorem digestHexAnswersSha1 : Obligations.DigestHexAnswersSha1 := by
  intro s chunk hchunk
  have hadmits : s.regs.newSession.admits chunk.length = true :=
    Regs.admits_of_fits ((Regs.newSession_fits _).2 hchunk)
  obtain ⟨_, _, hfill, hbitcnt, hdigest, hhex⟩ := s.regs.digestHex_digested chunk
  refine ⟨_, exec_digestHex_digested hadmits, rfl, hdigest, hhex, hfill, ?_, rfl, rfl⟩
  rw [State.respond_regs, State.withRegs_regs, hbitcnt, bitsOf, BitVec.toNat_ofNat]
  omega

end Sys2Proof.Machine
end

section
/-! PROOFS. `UPDATE` (`41_streaming.md` section 2): `ABSORB` of one byte (R92), the stride-wise `UPDATE` against the
bytewise one (R93), what `UPDATE` and `FINISH` leave unchanged, and the counter's capacity (D10). -/

namespace Sys2Proof.Machine

/-! ## `ABSORB` (R92) -/

/-- Settles O15: the registers of `ABSORB` one by one; the fill count of a full buffer wraps to 0. -/
theorem absorbOneByte : Obligations.AbsorbOneByte := by
  refine fun c x => ⟨c.absorb_buf x, fun hfull => ⟨?_, Fin.ext ?_⟩, fun hroom => ⟨?_, ?_⟩, c.absorb_bitcnt x,
    c.absorb_fin x, c.absorb_digest x, c.absorb_hex x⟩
  · rw [Regs.absorb_h, if_pos hfull]
  · rw [Regs.absorb_fill, hfull]; rfl
  · rw [Regs.absorb_h, if_neg (by omega)]
  · rw [Regs.absorb_fill]; omega

/-! ## `UPDATE` byte by byte (R93) -/

/-- `UPDATE` agrees with `ABSORB` of each byte followed by the counter update (R93, R94). -/
theorem Regs.update_agrees_bytewise (c : Regs) (chunk : List Byte) :
    (c.update chunk).Agrees ((c.absorbAll chunk).withBitcnt (c.bitcnt + BitVec.ofNat 64 (8 * chunk.length))) := by
  have h := c.update_agrees_absorbAll chunk
  rwa [Regs.update_bitcnt, bitsOf] at h

/-- Settles O16: within capacity `UPDATE` runs, and its strides agree with the single bytes. -/
theorem updateIsBytewise : Obligations.UpdateIsBytewise := fun s chunk hfin hfits =>
  ⟨_, exec_update_of_fits hfin hfits, s.regs.update_agrees_bytewise chunk, rfl⟩

/-! ## What `UPDATE` leaves unchanged (R91) -/

/-- Absorbing bytes up to the end of the buffer stores them from `FILL` on and leaves every other byte (R92). -/
theorem Regs.absorbAll_buf_of_outside {c : Regs} {bytes : List Byte} (hroom : c.fill.val + bytes.length ≤ 64)
    {j : Nat} (hj : j < 64) (houtside : j < c.fill.val ∨ c.fill.val + bytes.length ≤ j) :
    (c.absorbAll bytes).buf[j] = c.buf[j] := by
  induction bytes generalizing c with
  | nil => rfl
  | cons x bytes ih =>
    rw [List.length_cons] at hroom houtside
    have hfill := c.absorb_fill x
    simp only [Regs.absorbAll_cons, ih (c := c.absorb x) (by omega) (by omega), Regs.absorb_buf,
      Vector.getElem_set_ne c.fill.isLt hj (by omega : c.fill.val ≠ j)]

/-- Where no block fills, `UPDATE` leaves `H` (R91). -/
theorem Regs.update_h_of_short {c : Regs} {chunk : List Byte} (hshort : c.fill.val + chunk.length < 64) :
    (c.update chunk).h = c.h := by
  obtain ⟨hbytewise, _⟩ := c.update_agrees_absorbAll chunk
  obtain ⟨hkept, _⟩ := c.absorbAll_short chunk hshort
  exact hbytewise.trans hkept

/-- Part A of `UPDATE` does not reach beyond the buffer (R91). -/
theorem Regs.fill_add_topUp_le (c : Regs) (n : Nat) : c.fill.val + c.topUp n ≤ 64 := by
  have := c.fill.isLt
  unfold Regs.topUp
  split <;> omega

/-- The bytes that parts A and B leave are those of part C, and there are some only where part A has left the buffer
empty (R91). -/
theorem Regs.remainder_spec (c : Regs) (n : Nat) :
    n - (c.topUp n + 64 * c.strides n) = c.remainder n ∧ c.remainder n < 64 ∧
      (c.remainder n = 0 ∨ (c.fill.val + c.topUp n) % 64 = 0) := by
  unfold Regs.remainder Regs.strides Regs.topUp
  split <;> omega

/-- `UPDATE` writes the buffer bytes of part A, from `FILL` on, and those of part C, from 0 on, and no others (R91). -/
theorem Regs.update_buf_of_outside {c : Regs} {chunk : List Byte} {j : Nat} (hj : j < 64)
    (hA : ¬ (c.fill.val ≤ j ∧ j < c.fill.val + c.topUp chunk.length)) (hC : ¬ j < c.remainder chunk.length) :
    (c.update chunk).buf[j] = c.buf[j] := by
  have hroom := c.fill_add_topUp_le chunk.length
  have htop : (chunk.take (c.topUp chunk.length)).length = c.topUp chunk.length :=
    List.length_take_of_le (by have := c.topUp_add_strides_le chunk.length; omega)
  have hfill := c.absorbAll_fill (chunk.take (c.topUp chunk.length))
  obtain ⟨hrest, hlt, hempty⟩ := c.remainder_spec chunk.length
  have hpartC (h : StateWords) : (((c.absorbAll (chunk.take (c.topUp chunk.length))).withH h).absorbAll
      (chunk.drop (c.topUp chunk.length + 64 * c.strides chunk.length))).buf[j] =
        (c.absorbAll (chunk.take (c.topUp chunk.length))).buf[j] := by
    refine Regs.absorbAll_buf_of_outside ?_ hj ?_ <;>
      rw [List.length_drop, hrest, Regs.withH_fill, hfill, htop] <;> omega
  rw [Regs.update_eq]
  exact (hpartC _).trans (Regs.absorbAll_buf_of_outside (by omega) hj (by omega))

/-- Settles O19: a rejected `UPDATE` writes nothing, and one lemma per register says what an accepted one leaves. -/
theorem updateFrame : Obligations.UpdateFrame := by
  intro s t chunk h
  refine ⟨exec_frames h, exec_resetReq h, ?_⟩
  obtain ⟨hfin, he⟩ | ⟨hfin, _, he⟩ | ⟨_, _, he⟩ := execUpdate_cases chunk s <;> rw [exec, he] at h <;> cases h
  · have hactive : s.regs.fin ≠ false := by simp [hfin]
    exact ⟨rfl, rfl, rfl, fun _ => rfl, fun h => absurd h hactive, fun h => absurd h hactive, fun h => absurd h hactive⟩
  · have hfinished : s.regs.fin ≠ true := by simp [hfin]
    exact ⟨s.regs.update_fin chunk, s.regs.update_digest chunk, s.regs.update_hex chunk,
      fun h => absurd h hfinished, fun _ => Regs.update_h_of_short, fun _ => s.regs.update_fill chunk,
      fun _ j => Regs.update_buf_of_outside j.isLt⟩

/-! ## Beyond the counter's capacity (D10) -/

/-- Beyond the capacity a chunk is admitted exactly under `wrap` (D10). -/
theorem Regs.admits_eq_of_not_fits {c : Regs} {n : Nat} (hbeyond : 2 ^ 64 ≤ c.bitcnt.toNat + 8 * n) :
    c.admits n = decide (Config.bitcntOverflow = .wrap) := by
  rw [Bool.eq_iff_iff, Regs.admits_iff, bitsOf, decide_eq_true_eq, or_iff_right (by omega)]

/-- `UPDATE` while active is refused where the counter does not take the chunk (D10). -/
theorem exec_update_of_not_admits {s : State} {chunk : List Byte} (hfin : s.regs.fin = false)
    (hadmits : s.regs.admits chunk.length = false) : exec (.update chunk) s = .refused .counterCapacity := by
  obtain ⟨hf, _⟩ | ⟨_, ha, _⟩ | ⟨_, _, he⟩ := execUpdate_cases chunk s
  · simp [hfin] at hf
  · simp [hadmits] at ha
  · exact he

/-- `DIGEST_HEX` is refused where a fresh counter does not take the chunk (D10). -/
theorem exec_digestHex_of_not_admits {s : State} {chunk : List Byte}
    (hadmits : s.regs.newSession.admits chunk.length = false) :
    exec (.digestHex chunk) s = .refused .counterCapacity := by
  obtain ⟨ha, _⟩ | ⟨_, he⟩ := execDigestHex_cases chunk s
  · simp [hadmits] at ha
  · exact he

/-- Settles O20: beyond the capacity the parameter alone decides whether a chunk is admitted; an admitted one is absorbed
and digested as any other, with the counter modulo 2^64. -/
theorem capacityIsAParameter : Obligations.CapacityIsAParameter := by
  refine ⟨fun s chunk hfin hbeyond => ?_, fun s chunk hlong => ?_⟩
  · have hadmits := Regs.admits_eq_of_not_fits hbeyond
    cases hmode : Config.bitcntOverflow with
    | refuse =>
      exact exec_update_of_not_admits hfin (by rw [hadmits, hmode]; rfl)
    | wrap =>
      exact ⟨_, exec_update_of_admits hfin (by rw [hadmits, hmode]; rfl), s.regs.update_agrees_bytewise chunk,
        s.regs.update_bitcnt_toNat_mod chunk, rfl, rfl, rfl⟩
  · have hadmits : s.regs.newSession.admits chunk.length = _ :=
      Regs.admits_eq_of_not_fits (by show 2 ^ 64 ≤ 0 + 8 * chunk.length; omega)
    cases hmode : Config.bitcntOverflow with
    | refuse =>
      exact exec_digestHex_of_not_admits (by rw [hadmits, hmode]; rfl)
    | wrap =>
      exact ⟨_, exec_digestHex_digested (by rw [hadmits, hmode]; rfl), s.regs.digestHex_digested chunk,
        rfl, rfl, rfl⟩

/-! ## What `FINISH` leaves unchanged (R113) -/

/-- Where one block is enough, the bytes before the marker stay (R106 to R109). -/
theorem Regs.finish_buf_of_lt_fill {c : Regs} (hshort : c.fill.val < 56) {j : Nat} (hj : j < 64)
    (hlt : j < c.fill.val) : c.finish.buf[j] = c.buf[j] := by
  simp only [Regs.finish_buf, Regs.pad_buf_of_lt hshort]
  rw [memWrite_be64Bytes_getElem_of_lt _ _ hj (by omega), Regs.markedBlock_getElem_of_lt hj hlt]

/-- Settles O36: a rejected `FINISH` writes nothing; one that runs leaves the counter, and the buffered bytes where one
block is enough. -/
theorem finishFrame : Obligations.FinishFrame := by
  intro s t h
  refine ⟨exec_frames h, exec_resetReq h, ?_⟩
  cases hfin : s.regs.fin with
  | true =>
    rw [exec_finish_of_finished hfin] at h
    cases h
    exact ⟨rfl, fun _ => rfl, fun hactive => absurd hactive.symm Bool.false_ne_true⟩
  | false =>
    rw [exec_finish_of_active hfin] at h
    cases h
    exact ⟨s.regs.finish_bitcnt, fun hfinished => absurd hfinished Bool.false_ne_true,
      fun _ hshort j => Regs.finish_buf_of_lt_fill hshort j.isLt⟩

end Sys2Proof.Machine
end

section
/-! PROOFS. The lifecycle of a session (`70_reset_and_hazards.md` R148): the next phase of every command in every phase,
the stream that every step leaves, and a whole session from `NEW` to its digest. -/

namespace Sys2Proof.Machine

/-! ## The lifecycle table (R25, R148) -/

/-- `FIN = 0` is the phase `ACTIVE` (R25). -/
theorem Regs.phase_eq_active_iff {c : Regs} : c.phase = .active ↔ c.fin = false := by
  cases h : c.fin <;> simp [Regs.phase, h]

/-- `FIN = 1` is the phase `FINISHED` (R25). -/
theorem Regs.phase_eq_finished_iff {c : Regs} : c.phase = .finished ↔ c.fin = true := by
  cases h : c.fin <;> simp [Regs.phase, h]

/-- `FINISH` leads to `FINISHED` (R113). -/
theorem Regs.finish_phase (c : Regs) : c.finish.phase = .finished := phase_eq_finished_iff.2 c.finish_fin

/-- Settles O14: each row of the table is the outcome of that command in that phase. -/
theorem lifecycleTable : Obligations.LifecycleTable := by
  intro s
  refine ⟨⟨_, exec_new s, rfl⟩, fun chunk hactive hfits => ?_, fun chunk hfinished => ?_, fun hactive => ?_,
    fun hfinished => ?_, fun chunk hchunk => ?_, fun op rest hreset hdecode => ?_, fun hreset => ?_⟩
  · have hfin := Regs.phase_eq_active_iff.1 hactive
    refine ⟨_, exec_update_of_admits hfin (Regs.admits_of_fits hfits), ?_, rfl⟩
    exact Regs.phase_eq_active_iff.2 ((s.regs.update_fin chunk).trans hfin)
  · exact ⟨_, exec_update_of_finished (Regs.phase_eq_finished_iff.1 hfinished) chunk, rfl, rfl⟩
  · exact ⟨_, _, _, exec_finish_of_active (Regs.phase_eq_active_iff.1 hactive), s.regs.finish_phase, rfl⟩
  · exact ⟨_, exec_finish_of_finished (Regs.phase_eq_finished_iff.1 hfinished), rfl, rfl⟩
  · have hadmits := Regs.admits_of_fits ((Regs.newSession_fits s.regs).2 hchunk)
    exact ⟨_, _, exec_digestHex_of_admits hadmits, Regs.finish_phase _, rfl⟩
  · exact ⟨_, step_of_decode_reserved hreset hdecode, rfl, rfl⟩
  · exact ⟨_, step_of_resetReq hreset, rfl⟩

/-! ## The stream of a session, step by step (R36, R97, R114) -/

/-- The stream after a command, from the phase and the stream before it (R36, R148). -/
def streamAfter (fin : Bool) (S : List Byte) : Instr → List Byte
  | .new => []
  | .update chunk => if fin then S else S ++ chunk
  | .finish => S
  | .digestHex chunk => chunk

/-- The stream after a step at a whole frame is the stream after its command. -/
theorem State.nextStream_of_frame {s : State} {i : Instr} {rest : List Byte} (hreset : s.resetReq = false)
    (hdecode : decode s.frames = .frame i rest) (S : List Byte) : s.nextStream S = streamAfter s.regs.fin S i := by
  cases i <;> simp [State.nextStream, streamAfter, hreset, hdecode]

/-- While active, the session over a stream is open (R35). -/
theorem Regs.SessionOf.holds {S : List Byte} {c : Regs} (h : c.SessionOf S) (hfin : c.fin = false) : c.Holds S := by
  obtain hopen | ⟨hfinished, _⟩ := h
  · exact hopen
  · simp [hfin] at hfinished

/-- A command leaves the registers of a session over the stream after it (R36, R148). -/
theorem exec_sessionOf {i : Instr} {s t : State} {S : List Byte} (h : s.regs.SessionOf S)
    (hexec : exec i s = .next t) : t.regs.SessionOf (streamAfter s.regs.fin S i) := by
  obtain ⟨e, rfl⟩ | ⟨rfl, rfl⟩ | ⟨chunk, rfl, hfin, _, rfl⟩ | ⟨rfl, hfin, rfl⟩ | ⟨chunk, rfl, _, rfl⟩ :=
    exec_cases hexec
  · obtain ⟨hfin, _, _, ⟨chunk, rfl⟩ | rfl⟩ := exec_error_cases hexec rfl
    · rwa [streamAfter, if_pos hfin]
    · exact h
  · exact .inl s.regs.newSession_holds
  · rw [streamAfter, hfin]
    exact .inl ((h.holds hfin).update chunk)
  · exact .inr (h.holds hfin).finish
  · exact .inr (s.regs.digestHex_digested chunk)

/-- Settles O55: a step is a reset, a command, or leaves both the registers and the stream. -/
theorem stepKeepsSession : Obligations.StepKeepsSession := by
  intro s t S h hstep
  obtain ⟨hreset, rfl⟩ | ⟨hreset, hframes, rfl⟩ | ⟨hreset, i, rest, hdecode, hexec⟩ |
    ⟨hreset, op, rest, hdecode, rfl⟩ := step_cases hstep
  · rw [State.nextStream, if_pos hreset]
    exact .inl sessionAtReset
  · simpa [State.nextStream, hreset, hframes] using h
  · rw [State.nextStream_of_frame hreset hdecode]
    exact exec_sessionOf (s := s.withFrames rest) h hexec
  · simpa [State.nextStream, hreset, hdecode] using h

/-- In a session over any stream there is a digest exactly while it is finished (R31). -/
theorem Regs.SessionOf.fin_eq_false_iff {S : List Byte} {c : Regs} (h : c.SessionOf S) :
    c.fin = false ↔ c.digest = none := by
  obtain ⟨hfin, _, _, _, hdigest, _⟩ | ⟨hfin, _, _, _, hdigest, _⟩ := h
  · simp [hfin, hdigest]
  · simp [hfin, hdigest]

/-- Every state that the host can bring about holds a session over some stream (R140, R145). -/
theorem Reachable.exists_sessionOf {s : State} (h : Reachable s) : ∃ S, s.regs.SessionOf S := by
  induction h with
  | reset => exact ⟨[], .inl sessionAtReset⟩
  | @step s t _ hstep ih =>
    obtain ⟨S, hS⟩ := ih
    exact ⟨s.nextStream S, stepKeepsSession s t S hS hstep⟩
  | send bytes _ ih => exact ih
  | requestReset _ ih => exact ih

/-- Settles O56: reset opens a session, every step keeps one, and the host's own moves write no register. -/
theorem reachableStatesHoldASession : Obligations.ReachableStatesHoldASession := by
  intro s hreachable
  obtain ⟨S, hS⟩ := hreachable.exists_sessionOf
  exact ⟨⟨S, hS⟩, hS.fin_eq_false_iff⟩

/-! ## A whole session (R148, R119) -/

/-- An open session over `S` with these bytes still to be taken, no reset asked for, and these responses given. -/
structure State.Streaming (S frames : List Byte) (responses : List Response) (s : State) : Prop where
  holds : s.regs.Holds S
  resetReq : s.resetReq = false
  frames : s.frames = frames
  responses : s.responses = responses

/-- A step at the frame of `NEW` opens a session (R90). -/
theorem step_new {s : State} {more : List Byte} (hreset : s.resetReq = false)
    (hframes : s.frames = encode .new ++ more) :
    ∃ t, step s = .next t ∧ t.Streaming [] more (s.responses ++ [.ok]) := by
  have hdecode : decode s.frames = .frame .new more := by rw [hframes, decodeEncodeRoundTrip .new more rfl]
  exact ⟨_, (step_of_decode_frame hreset hdecode).trans (exec_new _), s.regs.newSession_holds, hreset, rfl, rfl⟩

/-- A step at the frame of an `UPDATE` within capacity extends the stream (R91, R97). -/
theorem State.Streaming.step_update {S chunk more : List Byte} {given : List Response} {s : State}
    (h : s.Streaming S (encode (.update chunk) ++ more) given) (hlen : (S ++ chunk).length < 2 ^ 61) :
    ∃ t, step s = .next t ∧ t.Streaming (S ++ chunk) more (given ++ [.ok]) := by
  obtain ⟨hholds, hreset, hframes, rfl⟩ := h
  have ⟨hfin, _, _, hbitcnt, _⟩ := hholds
  rw [List.length_append] at hlen
  have hdecode : decode s.frames = .frame (.update chunk) more := by
    rw [hframes, decode_encode_update more (by show chunk.length < 2 ^ 64; omega)]
  have hfits : s.regs.bitcnt.toNat + 8 * chunk.length < 2 ^ 64 := by
    rw [hbitcnt, bitsOf, BitVec.toNat_ofNat]
    omega
  exact ⟨_, (step_of_decode_frame hreset hdecode).trans (exec_update_of_fits hfin hfits), hholds.update chunk, hreset,
    rfl, rfl⟩

/-- A step at the frame of `FINISH` answers the digest of the stream (R113, R114). -/
theorem State.Streaming.step_finish {S more : List Byte} {given : List Response} {s : State}
    (h : s.Streaming S (encode .finish ++ more) given) :
    ∃ t, step s = .next t ∧ t.frames = more ∧ t.responses = given ++ [.okDigest (sha1 S) (hexRender (sha1 S))] := by
  obtain ⟨hholds, hreset, hframes, rfl⟩ := h
  have ⟨hfin, _⟩ := hholds
  have hdecode : decode s.frames = .frame .finish more := by rw [hframes, decodeEncodeRoundTrip .finish more rfl]
  refine ⟨_, (step_of_decode_frame hreset hdecode).trans (exec_finish_of_active hfin), rfl, ?_⟩
  rw [State.respond_responses, State.withFrames_regs, hholds.finish_h, sha1]
  rfl

/-- A run that begins with a step that answers is the run from what it answers. -/
theorem run_succ_of_step {M : Host.Core} {s t : M.State} (hstep : M.step s = .next t) (n : Nat) :
    M.run (n + 1) s = M.run n t := by
  rw [Host.Core.run, hstep]

/-- A run over the frames of several `UPDATE`s extends the stream by all their chunks (R46, R97). -/
theorem State.Streaming.run_updates {chunks : List (List Byte)} {S more : List Byte} {given : List Response} {s : State}
    (h : s.Streaming S (chunks.flatMap (fun chunk => encode (.update chunk)) ++ more) given)
    (hlen : (S ++ chunks.flatten).length < 2 ^ 61) (n : Nat) :
    ∃ t : State, Sys2Proof.core.run (n + chunks.length) s = Sys2Proof.core.run n t ∧
      t.Streaming (S ++ chunks.flatten) more (given ++ List.replicate chunks.length .ok) := by
  induction chunks generalizing S given s with
  | nil =>
    rw [List.flatten_nil, List.append_nil, List.length_nil, List.replicate_zero, List.append_nil]
    exact ⟨s, rfl, h⟩
  | cons chunk chunks ih =>
    rw [List.flatMap_cons, List.append_assoc] at h
    rw [List.flatten_cons, ← List.append_assoc] at hlen ⊢
    obtain ⟨u, hstep, hu⟩ := h.step_update (by rw [List.length_append] at hlen; omega)
    obtain ⟨t, hrun, ht⟩ := ih hu hlen
    rw [List.append_assoc given, List.singleton_append, ← List.replicate_succ] at ht
    exact ⟨t, (run_succ_of_step (M := Sys2Proof.core) hstep _).trans hrun, ht⟩

/-- Settles O42: `NEW` opens a session, the `UPDATE`s extend its stream, and `FINISH` answers the digest of it. -/
theorem sessionAnswersSha1 : Obligations.SessionAnswersSha1 := by
  intro s chunks rest hreset hlen hframes
  rw [List.append_assoc, List.append_assoc] at hframes
  obtain ⟨u, hnew, hu⟩ := step_new hreset hframes
  obtain ⟨v, hupdates, hv⟩ := hu.run_updates (by simpa using hlen) 1
  obtain ⟨t, hfinish, htframes, htresponses⟩ := hv.step_finish
  have hrun : Sys2Proof.core.run (chunks.length + 2) s = .next t := calc
    Sys2Proof.core.run (chunks.length + 2) s = Sys2Proof.core.run (1 + chunks.length) u := by
      rw [Nat.add_comm 1]
      exact run_succ_of_step (M := Sys2Proof.core) hnew _
    _ = Sys2Proof.core.run 1 v := hupdates
    _ = .next t := run_succ_of_step (M := Sys2Proof.core) hfinish 0
  refine ⟨t, hrun, htframes, ?_⟩
  rw [htresponses, List.append_assoc s.responses, List.singleton_append, ← List.replicate_succ, List.nil_append]

end Sys2Proof.Machine
end

section
/-! PROOFS. What no step does (`60_exceptions.md`, `10_state.md` R29, R34): stop while the host keeps its duties, change
a finished session, tell stale bytes apart, or reach another core of the platform (R137). -/

namespace Sys2Proof.Machine

/-! ## A finished session (`42_finalization.md` section 6) -/

/-- While finished, every command but `NEW` and `DIGEST_HEX` is rejected (R126, R127). -/
theorem exec_regs_of_finished {i : Instr} {s t : State} (hfin : s.regs.fin = true) (hnew : i ≠ .new)
    (hdigestHex : ∀ chunk, i ≠ .digestHex chunk) (h : exec i s = .next t) : t.regs = s.regs := by
  obtain ⟨e, rfl⟩ | ⟨hi, _⟩ | ⟨_, _, hactive, _⟩ | ⟨_, hactive, _⟩ | ⟨chunk, hi, _⟩ := exec_cases h
  · rfl
  · exact absurd hi hnew
  · simp [hfin] at hactive
  · simp [hfin] at hactive
  · exact absurd hi (hdigestHex chunk)

/-- Settles O49: of all a step can do, only a reset, `NEW` and `DIGEST_HEX` write registers while finished. -/
theorem digestIsImmutable : Obligations.DigestIsImmutable := by
  intro s t hfin hreset hnew hdigestHex hstep
  obtain ⟨hreq, _⟩ | ⟨_, _, rfl⟩ | ⟨_, i, rest, hdecode, hexec⟩ | ⟨_, op, rest, _, rfl⟩ := step_cases hstep
  · simp [hreset] at hreq
  · rfl
  · refine exec_regs_of_finished (s := s.withFrames rest) hfin ?_ ?_ hexec
    · rintro rfl
      exact hnew rest hdecode
    · rintro chunk rfl
      exact hdigestHex chunk rest hdecode
  · rfl

/-! ## The host's duties (R60, R155) -/

/-- `UPDATE` answers while finished, and while active within the counter's capacity (R91, R126). -/
theorem exists_exec_update {s : State} {chunk : List Byte}
    (hcapacity : s.regs.fin = true ∨ s.regs.fits chunk.length = true) : ∃ t, exec (.update chunk) s = .next t := by
  cases hfin : s.regs.fin with
  | true => exact ⟨_, exec_update_of_finished hfin chunk⟩
  | false =>
    have hfits := hcapacity.resolve_left (by simp [hfin])
    exact ⟨_, exec_update_of_admits hfin (Regs.admits_of_fits hfits)⟩

/-- `FINISH` answers in either phase (R113, R127). -/
theorem exists_exec_finish (s : State) : ∃ t, exec .finish s = .next t := by
  cases hfin : s.regs.fin with
  | true => exact ⟨_, exec_finish_of_finished hfin⟩
  | false => exact ⟨_, exec_finish_of_active hfin⟩

/-- Settles O50: whatever the decoder finds but a truncated frame has a next state, within the counter's capacity. -/
theorem stepAnswersWhileHostKeepsDuties : Obligations.StepAnswersWhileHostKeepsDuties := by
  intro s hwhole hcapacity
  cases hreset : s.resetReq with
  | true => exact ⟨_, step_of_resetReq hreset⟩
  | false =>
    cases hdecode : decode s.frames with
    | idle => exact ⟨_, step_of_decode_idle hreset hdecode⟩
    | reserved op rest => exact ⟨_, step_of_decode_reserved hreset hdecode⟩
    | truncated op => exact absurd hdecode (hwhole op)
    | frame i rest =>
      rw [step_of_decode_frame hreset hdecode]
      rw [State.WithinCapacity, hdecode] at hcapacity
      cases i with
      | new => exact ⟨_, exec_new _⟩
      | update chunk => exact exists_exec_update (s := s.withFrames rest) hcapacity
      | finish => exact exists_exec_finish _
      | digestHex chunk =>
        exact ⟨_, exec_digestHex_of_admits (Regs.admits_of_fits ((Regs.newSession_fits _).2 hcapacity))⟩

/-! ## Stale bytes (R29, R34) -/

/-- Two outcomes that differ in stale bytes at most: next states that agree, or one refusal. -/
def OutcomesAgree : Host.Outcome State Fault Refusal → Host.Outcome State Fault Refusal → Prop
  | .next s, .next t => s.Agrees t
  | .refused r, .refused q => r = q
  | _, _ => False

/-- Two fresh sessions agree: no byte of their buffers has a meaning (R90). -/
theorem Regs.newSession_agrees (c d : Regs) : c.newSession.Agrees d.newSession :=
  c.newSession_holds.agrees d.newSession_holds

/-- `UPDATE` reads no stale byte (R29, R91). -/
theorem Regs.Agrees.update {c d : Regs} (h : c.Agrees d) (chunk : List Byte) :
    (c.update chunk).Agrees (d.update chunk) := by
  have ⟨_, _, hbitcnt, _⟩ := h
  have hd := d.update_agrees_bytewise chunk
  rw [← hbitcnt] at hd
  exact (c.update_agrees_bytewise chunk).trans (((h.absorbAll chunk).withBitcnt _).trans hd.symm)

/-- `DIGEST_HEX` reads no register at all (R116). -/
theorem Regs.digestHex_eq (chunk : List Byte) (c d : Regs) : c.digestHex chunk = d.digestHex chunk :=
  ((c.newSession_agrees d).update chunk).finish_eq

/-- Whether a chunk is admitted depends on the counter alone (D10). -/
theorem Regs.admits_congr {c d : Regs} (h : c.bitcnt = d.bitcnt) (n : Nat) : c.admits n = d.admits n := by
  rw [Regs.admits, Regs.admits, Regs.fits, Regs.fits, h]

/-- States that agree still do after the same response, with registers that agree. -/
theorem State.Agrees.respond {s t : State} (h : s.Agrees t) {c d : Regs} (hcd : c.Agrees d) (r : Response) :
    ((s.withRegs c).respond r).Agrees ((t.withRegs d).respond r) := by
  obtain ⟨_, hframes, hresponses, hreset⟩ := h
  exact ⟨hcd, hframes, congrArg (· ++ [r]) hresponses, hreset⟩

/-- States that agree still do after the same error response (R131). -/
theorem State.Agrees.respond_error {s t : State} (h : s.Agrees t) (e : CmdError) :
    (s.respond (.error e)).Agrees (t.respond (.error e)) :=
  have ⟨hregs, _⟩ := h
  h.respond hregs (.error e)

/-- States that agree still do with the same bytes left to take. -/
theorem State.Agrees.withFrames {s t : State} (h : s.Agrees t) (frames : List Byte) :
    (s.withFrames frames).Agrees (t.withFrames frames) := by
  obtain ⟨hregs, _, hresponses, hreset⟩ := h
  exact ⟨hregs, rfl, hresponses, hreset⟩

/-- States that agree still do after a reset of both (R145). -/
theorem State.Agrees.takeReset {s t : State} (h : s.Agrees t) : s.takeReset.Agrees t.takeReset := by
  obtain ⟨_, hframes, hresponses, _⟩ := h
  exact ⟨Regs.Agrees.refl Regs.reset, hframes, hresponses, rfl⟩

/-- `UPDATE` on states that agree answers alike (R91, R126, D10). -/
theorem exec_update_agrees {s t : State} (h : s.Agrees t) (chunk : List Byte) :
    OutcomesAgree (exec (.update chunk) s) (exec (.update chunk) t) := by
  have ⟨hregs, _⟩ := h
  have ⟨_, _, hbitcnt, hfin, _⟩ := hregs
  have hadmits := Regs.admits_congr hbitcnt chunk.length
  obtain ⟨hf, he⟩ | ⟨hf, ha, he⟩ | ⟨hf, ha, he⟩ := execUpdate_cases chunk s
  · rw [exec, he, exec_update_of_finished (hfin ▸ hf)]
    exact h.respond_error .invalidState
  · rw [exec, he, exec_update_of_admits (hfin ▸ hf) (hadmits ▸ ha)]
    exact h.respond (hregs.update chunk) .ok
  · rw [exec, he, exec_update_of_not_admits (hfin ▸ hf) (hadmits ▸ ha)]
    rfl

/-- `FINISH` on states that agree answers alike: it leaves the same registers (R113, R127). -/
theorem exec_finish_agrees {s t : State} (h : s.Agrees t) : OutcomesAgree (exec .finish s) (exec .finish t) := by
  have ⟨hregs, _⟩ := h
  have ⟨_, _, _, hfin, _⟩ := hregs
  cases hf : s.regs.fin with
  | true =>
    rw [exec_finish_of_finished hf, exec_finish_of_finished (hfin ▸ hf)]
    exact h.respond_error .invalidState
  | false =>
    rw [exec_finish_of_active hf, exec_finish_of_active (hfin ▸ hf), hregs.finish_eq]
    exact h.respond (Regs.Agrees.refl _) _

/-- `DIGEST_HEX` on states that agree answers alike: it leaves the same registers (R116, D10). -/
theorem exec_digestHex_agrees {s t : State} (h : s.Agrees t) (chunk : List Byte) :
    OutcomesAgree (exec (.digestHex chunk) s) (exec (.digestHex chunk) t) := by
  have hadmits : s.regs.newSession.admits chunk.length = t.regs.newSession.admits chunk.length :=
    Regs.admits_congr rfl chunk.length
  cases ha : s.regs.newSession.admits chunk.length with
  | true =>
    rw [exec_digestHex_of_admits ha, exec_digestHex_of_admits (hadmits ▸ ha), s.regs.digestHex_eq chunk t.regs]
    exact h.respond (Regs.Agrees.refl _) _
  | false =>
    rw [exec_digestHex_of_not_admits ha, exec_digestHex_of_not_admits (hadmits ▸ ha)]
    rfl

/-- Every command on states that agree answers alike. -/
theorem exec_agrees {s t : State} (h : s.Agrees t) (i : Instr) : OutcomesAgree (exec i s) (exec i t) := by
  cases i with
  | new => exact h.respond (s.regs.newSession_agrees t.regs) .ok
  | update chunk => exact exec_update_agrees h chunk
  | finish => exact exec_finish_agrees h
  | digestHex chunk => exact exec_digestHex_agrees h chunk

/-- A step on states that agree answers alike: both hold the same frames and the same reset request. -/
theorem step_agrees {s t : State} (h : s.Agrees t) : OutcomesAgree (step s) (step t) := by
  have ⟨_, hframes, _, hreq⟩ := h
  cases hreset : s.resetReq with
  | true =>
    rw [step_of_resetReq hreset, step_of_resetReq (hreq ▸ hreset)]
    exact h.takeReset
  | false =>
    rw [step_of_not_resetReq hreset, step_of_not_resetReq (hreq ▸ hreset), ← hframes]
    cases decode s.frames with
    | idle => exact h
    | frame i rest => exact exec_agrees (h.withFrames rest) i
    | reserved op rest => exact (h.withFrames rest).respond_error .illegalCommand
    | truncated op => rfl

/-- An outcome that agrees with a next state is a next state that agrees with it. -/
theorem OutcomesAgree.exists_next {s' : State} {o : Host.Outcome State Fault Refusal}
    (h : OutcomesAgree (.next s') o) : ∃ t', o = .next t' ∧ s'.Agrees t' := by
  cases o with
  | next t' => exact ⟨t', rfl, h⟩
  | fault r => cases h
  | refused r => cases h

/-- An outcome that agrees with a refusal is that refusal. -/
theorem OutcomesAgree.eq_refused {r : Refusal} {o : Host.Outcome State Fault Refusal}
    (h : OutcomesAgree (.refused r) o) : o = .refused r := by
  cases o with
  | next t' => cases h
  | fault q => cases h
  | refused q => exact congrArg _ (Eq.symm h)

/-- Settles O57: the outcomes of both steps agree, next states and refusals alike. -/
theorem staleBytesAreUnobservable : Obligations.StaleBytesAreUnobservable := by
  intro s t h
  have hstep := step_agrees h
  refine ⟨fun s' hs => ?_, fun r hs => ?_⟩
  · rw [hs] at hstep
    exact hstep.exists_next
  · rw [hs] at hstep
    exact hstep.eq_refused

/-! ## Several cores (R137) -/

/-- A platform step that answers is the step of one core that exists, and sets that core alone (R137). -/
theorem platformStep_eq_next {k : Nat} {p q : Platform} (h : platformStep k p = some (.next q)) :
    ∃ s t, p[k]? = some s ∧ step s = .next t ∧ q = p.set k t := by
  obtain ⟨s, hs, houtcome⟩ := Option.map_eq_some_iff.1 h
  cases hstep : step s with
  | next t =>
    rw [hstep] at houtcome
    cases houtcome
    exact ⟨s, t, hs, hstep, rfl⟩
  | fault r => cases r
  | refused r =>
    rw [hstep] at houtcome
    cases houtcome

/-- Settles O51: the platform step sets one element of the list, to what that core's own step answers. -/
theorem instancesAreIndependent : Obligations.InstancesAreIndependent := by
  refine ⟨fun n k hk => List.getElem?_replicate_of_lt hk, fun p q k h => ?_⟩
  obtain ⟨s, t, hs, hstep, rfl⟩ := platformStep_eq_next h
  obtain ⟨hk, _⟩ := List.getElem?_eq_some_iff.1 hs
  exact ⟨List.length_set, fun j hj => List.getElem?_set_ne hj.symm, s, t, hs, hstep, List.getElem?_set_self hk⟩

end Sys2Proof.Machine
end

section
/-! PROOFS. Derived facts of the compression core (`40_compression.md` sections 5 and 9): the disjoint terms of the
choice (R75), the inverse of a round (R85), and the 16-word circular schedule store (R83). -/

namespace Sys2Proof.Machine

/-! ## The choice (R75) -/

/-- The two terms of the choice never have a 1 in a common position: `b` is set in the one and clear in the other. -/
theorem choice_terms_disjoint (b c d : Word) : (b &&& c) &&& (~~~b &&& d) = 0 := by
  refine BitVec.eq_of_getLsbD_eq fun i _ => ?_
  cases hb : b.getLsbD i <;> simp [hb]

/-- Where two words have no 1 in common, their inclusive or is their exclusive or. -/
theorem or_eq_xor_of_disjoint {x y : Word} (h : x &&& y = 0) : x ||| y = x ^^^ y := by
  refine BitVec.eq_of_getLsbD_eq fun i _ => ?_
  have hbit : (x.getLsbD i && y.getLsbD i) = false := by rw [← BitVec.getLsbD_and, h]; simp
  rw [BitVec.getLsbD_or, BitVec.getLsbD_xor]
  cases hx : x.getLsbD i <;> simp_all

/-- Settles O30: disjoint terms have the same inclusive or, exclusive or and sum. -/
theorem choiceTermsAreDisjoint : Obligations.ChoiceTermsAreDisjoint := by
  intro b c d
  have hdisjoint := choice_terms_disjoint b c d
  refine ⟨hdisjoint, or_eq_xor_of_disjoint hdisjoint, ?_⟩
  exact (BitVec.add_eq_or_of_and_eq_zero _ _ hdisjoint).symm

/-! ## The inverse of a round (R85) -/

/-- Two rotations that make a full turn undo each other (R8). -/
theorem rotl_rotl_of_add {m n : Nat} (hm : m < 32) (hn : n < 32) (hmn : m + n = 32) (x : Word) :
    rotl m (rotl n x) = x := by
  refine BitVec.eq_of_getLsbD_eq fun i hi => ?_
  have hturn : ((i + n) % 32 + m) % 32 = i := by omega
  have hback := rotl_getLsbD_add_mod (rotl n x) hm (Nat.mod_lt (i + n) (by decide : 0 < 32))
  rwa [hturn, rotl_getLsbD_add_mod x hn hi] at hback

/-- The first working variable after a round, with the terms that the inverse subtracts gathered (R74, R85). -/
theorem roundTemp_eq_add (t : Fin 80) (w : Word) (r : Work) :
    roundTemp t w r = r.e + (rotl 5 r.a + roundF (kindOf t) r.b r.c r.d + w + roundK (kindOf t)) := by
  rw [roundTemp]
  ac_rfl

/-- The inverse undoes a round (R85). -/
theorem roundInverse_roundStep (t : Fin 80) (w : Word) (r : Work) : roundInverse t w (roundStep t w r) = r := by
  rw [roundStep, roundInverse, rotl_rotl_of_add (by decide) (by decide) rfl, roundTemp_eq_add, BitVec.add_sub_cancel]

/-- A round undoes its inverse (R85). -/
theorem roundStep_roundInverse (t : Fin 80) (w : Word) (r : Work) : roundStep t w (roundInverse t w r) = r := by
  rw [roundStep, roundTemp_eq_add, roundInverse, rotl_rotl_of_add (by decide) (by decide) rfl, BitVec.sub_add_cancel]

/-- Settles O33: the rotations by 2 and 30 make a full turn, and the five-term sum loses and regains its four terms. -/
theorem roundIsInvertible : Obligations.RoundIsInvertible :=
  fun t w r => ⟨roundInverse_roundStep t w r, roundStep_roundInverse t w r⟩

/-! ## The circular store (R83) -/

/-- The circular store holds the 16 words of the schedule before word `n`, each at its own place modulo 16. -/
def HoldsLast16 (W : Schedule) (n : Nat) (w : Vector Word 16) : Prop :=
  ∀ (u : Nat) (h80 : u < 80), u < n → n ≤ u + 16 → w[u % 16]'(Nat.mod_lt u (by decide)) = W[u]

/-- Before round 16 the store holds the parsed words, the first 16 of the schedule (R71, R83). -/
theorem holdsLast16_parse (block : Block) : HoldsLast16 (sched (parse block)) 16 (parse block) := by
  intro u h80 hu _
  have hword : (sched (parse block))[u] = (parse block)[u] := (schedFrom_scheduled _ (parse block)).parsed u hu
  simp only [Nat.mod_eq_of_lt hu, hword]

/-- In rounds 0 to 15 the store stays as it is (R83). -/
theorem circularStep_of_lt {t : Fin 80} (ht : t.val < 16) (w : Vector Word 16) : circularStep w t = w := if_pos ht

/-- In rounds 16 to 79 the store takes in the word of the round, over the one that no later round reads (R72, R83). -/
theorem HoldsLast16.step {w16 w : Vector Word 16} {t : Fin 80} (h : HoldsLast16 (sched w16) t.val w)
    (ht : 16 ≤ t.val) : HoldsLast16 (sched w16) (t.val + 1) (circularStep w t) := by
  intro u h80 hu hlast
  rw [circularStep_getElem]
  obtain hold | rfl : u < t.val ∨ u = t.val := by omega
  · rw [if_neg (by omega), h u h80 hold (by omega)]
  · have hread (k : Nat) (hk : 1 ≤ k) (hk16 : k ≤ 16) :
        w[(t.val - k) % 16]'(Nat.mod_lt _ (by decide)) = (sched w16)[t.val - k] :=
      h (t.val - k) (by omega) (by omega) (by omega)
    rw [if_pos ⟨ht, rfl⟩, hread 3 (by decide) (by decide), hread 8 (by decide) (by decide),
      hread 14 (by decide) (by decide), hread 16 (by decide) (by decide)]
    exact ((schedFrom_scheduled _ w16).recurrence t.val ht (by omega) h80).symm

/-- The circular store after the refreshes of the first `n` rounds (R83). -/
def circularUpTo (block : Block) (n : Nat) : Vector Word 16 :=
  ((List.finRange 80).take n).foldl circularStep (parse block)

theorem circularUpTo_succ (block : Block) (t : Fin 80) :
    circularUpTo block (t.val + 1) = circularStep (circularUpTo block t.val) t :=
  foldl_take_finRange_succ circularStep (parse block) t

/-- After any number of rounds the store holds the last 16 words of the schedule so far, which begins with 16 (R83). -/
theorem circularUpTo_holdsLast16 (block : Block) :
    ∀ n ≤ 80, HoldsLast16 (sched (parse block)) (max 16 n) (circularUpTo block n)
  | 0, _ => holdsLast16_parse block
  | n + 1, hn => by
    have ih := circularUpTo_holdsLast16 block n (by omega)
    rw [circularUpTo_succ block ⟨n, hn⟩]
    rcases Nat.lt_or_ge n 16 with hparsed | h16
    · rw [Nat.max_eq_left (by omega)] at ih ⊢
      rwa [circularStep_of_lt hparsed]
    · rw [Nat.max_eq_right (by omega)] at ih ⊢
      exact ih.step (t := ⟨n, hn⟩) h16

/-- In every round the store has the word of the round at the round's place (R83). -/
theorem circularUpTo_getElem (block : Block) (t : Fin 80) :
    (circularUpTo block (t.val + 1))[t.val % 16]'(Nat.mod_lt _ (by decide)) = (sched (parse block))[t] :=
  circularUpTo_holdsLast16 block (t.val + 1) t.isLt t.val t.isLt (by omega) (by omega)

/-- After any number of rounds with the circular store, the working variables are those of the full schedule (R83). -/
theorem foldl_circularRound (block : Block) (r : Work) :
    ∀ n ≤ 80, ((List.finRange 80).take n).foldl circularRound (parse block, r) =
      (circularUpTo block n, roundsUpTo (sched (parse block)) r n)
  | 0, _ => rfl
  | n + 1, hn => by
    have hword := circularUpTo_getElem block ⟨n, hn⟩
    rw [foldl_take_finRange_succ circularRound _ ⟨n, hn⟩, foldl_circularRound block r n (by omega),
      roundsUpTo_succ _ r ⟨n, hn⟩, ← hword, circularUpTo_succ block ⟨n, hn⟩, circularRound]

/-- The compression function is the same with either store (R83). -/
theorem compressCircular_eq_compressFn (h : StateWords) (block : Block) :
    compressCircular h block = compressFn h block := by
  rw [compressCircular, ← foldl_take_finRange_all, foldl_circularRound block (workOf h) 80 le_rfl, roundsUpTo_80,
    compressFn]

/-- Settles O32: the store holds the last 16 words in every round, so each round uses the same word. -/
theorem circularScheduleIsEquivalent : Obligations.CircularScheduleIsEquivalent :=
  fun h block => ⟨circularUpTo_getElem block, compressCircular_eq_compressFn h block⟩

end Sys2Proof.Machine
end

section
/-! PROOFS. The lines of test programs (`30_encoding.md` R62): a command written as a line is read back. -/

namespace Sys2Proof.Machine

/-! ## Hexadecimal bytes -/

/-- The character of a digit is read back as that digit. -/
theorem hexVal_hexChar (v : BitVec 4) : hexVal (hexChar v) = some v.toNat := by
  decide +revert

/-- The character of a digit is not the quote that closes a chunk. -/
theorem hexChar_ne_quote (v : BitVec 4) : hexChar v ≠ quote := by
  decide +revert

/-- The two characters of a byte are read back as that byte. -/
theorem hexByte_hexChar (b : Byte) : hexByte (hexChar (b.extractLsb' 4 4)) (hexChar (b.extractLsb' 0 4)) = some b := by
  rw [hexByte, hexVal_hexChar, hexVal_hexChar, highNibble_toNat, lowNibble_toNat]
  simp only [Nat.div_add_mod, BitVec.ofNat_toNat, BitVec.setWidth_eq]

/-- The characters of a chunk and the closing quote are read back as that chunk, to the end. -/
theorem parseHex_chunk (chunk : List Byte) :
    parseHex (chunk.flatMap (fun b => [hexChar (b.extractLsb' 4 4), hexChar (b.extractLsb' 0 4)]) ++ [quote]) =
      some (chunk, []) := by
  induction chunk with
  | nil => rfl
  | cons b chunk ih =>
    simp only [List.flatMap_cons, List.cons_append, List.nil_append, parseHex, if_neg (hexChar_ne_quote _),
      hexByte_hexChar, ih]

/-- A chunk in hexadecimal is read back, to the end. -/
theorem parseChunk_chunkSource (chunk : List Byte) : parseChunk (chunkSource chunk) = some (chunk, []) :=
  parseHex_chunk chunk

/-! ## Lines -/

/-- After its mnemonic and a blank, a chunk in hexadecimal is read whole, and nothing is left of the line. -/
theorem parseChunk_dropWhile_blank (chunk : List Byte) :
    parseChunk ((' ' :: chunkSource chunk).dropWhile isBlank) = some (chunk, []) :=
  parseChunk_chunkSource chunk

/-- The operand of an `UPDATE` line is read back. -/
theorem assembleOperand_update (chunk : List Byte) :
    assembleOperand .update (' ' :: chunkSource chunk) = some (.update chunk) := by
  rw [assembleOperand, parseChunk_dropWhile_blank]
  rfl

/-- The operand of a `DIGEST_HEX` line is read back. -/
theorem assembleOperand_digestHex (chunk : List Byte) :
    assembleOperand .digestHex (' ' :: chunkSource chunk) = some (.digestHex chunk) := by
  rw [assembleOperand, parseChunk_dropWhile_blank]
  rfl

/-- Settles O10: the mnemonics are read by computation, whatever follows; the chunk is read back by its own lemmas. -/
theorem assemblyRoundTrip : Obligations.AssemblyRoundTrip
  | .new => rfl
  | .update chunk => congrArg (Option.map fun i => [i]) (assembleOperand_update chunk)
  | .finish => rfl
  | .digestHex chunk => congrArg (Option.map fun i => [i]) (assembleOperand_digestHex chunk)

end Sys2Proof.Machine
end
